-- ==== Sys2Proof/Word.lean ====
section
/-! DEFINITION. The word types of FBCORE (00_scope.md R7, R8): bit vectors only where the spec speaks of bits. -/

namespace Sys2Proof

/-- A 32-bit register word, and the packed-pixel container (`PACK_W` and `GEOM_W` of 00_scope.md R7). -/
abbrev Word := BitVec 32

/-- A canonical channel value (`CH_W` of 00_scope.md R7). -/
abbrev Half := BitVec 16

/-- One byte of the borrowed region (20_memory.md R40). -/
abbrev Byte := BitVec 8

/-- A register number (10_state.md R11). -/
abbrev RegNumber := BitVec 8

/-- A host transaction of format BUS: WE in bit 40, ADDR in 39:32, WDATA in 31:0 (30_encoding.md R60). -/
abbrev Transaction := BitVec 41

end Sys2Proof
end

