-- ==== Sys2Proof/Syntax.lean ====
section
/-! DEFINITION. The syntax of FBCORE: channels, register names, the eight commands, and one constructor of `Instr` for
each of the ten rows of spec/opcode_table.json. -/

namespace Sys2Proof

/-- The four channels, numbered 0 to 3 in this order (30_encoding.md R65). -/
inductive Channel where
  | red
  | green
  | blue
  | alpha
deriving DecidableEq, Repr

/-- The 26 mapped registers, in the order of the table of 10_state.md R11. -/
inductive Reg where
  | descRed
  | descGreen
  | descBlue
  | descAlpha
  | descBpp
  | descPitch
  | descXres
  | descYres
  | fmtRed
  | fmtGreen
  | fmtBlue
  | fmtAlpha
  | fmtBypp
  | bufPitch
  | bufWidth
  | bufHeight
  | x
  | y
  | cr
  | cg
  | cb
  | ca
  | pix
  | v16
  | status
  | cmd
deriving DecidableEq, Repr

/-- The access rights of a register: the column "Access" of 10_state.md R11. -/
inductive Rights where
  | readWrite
  | readOnly
  | writeOnly
deriving DecidableEq, Repr

/-- The commands a WR to CMD can spell (30_encoding.md R64). -/
inductive Command where
  | fmtset
  | bufset
  | pack (ch : Channel)
  | unpack (ch : Channel)
  | encode
  | decode
  | getpixel
  | setpixel
deriving DecidableEq, Repr

/-- One constructor per row of spec/opcode_table.json: the two transactions and the eight commands. The register number
of a transaction stays a number, because an unmapped one is a well-formed transaction (30_encoding.md R68). -/
inductive Instr where
  /-- WR, register write (40_host_access.md R81). -/
  | wr (addr : RegNumber) (wdata : Word)
  /-- RD, register read (40_host_access.md R83); its WDATA field is ignored (30_encoding.md R60). -/
  | rd (addr : RegNumber)
  /-- FMTSET (41_configuration.md R92). -/
  | fmtset
  /-- BUFSET (41_configuration.md R95). -/
  | bufset
  /-- PACK (42_channel_codec.md R104). -/
  | pack (ch : Channel)
  /-- UNPACK (42_channel_codec.md R105). -/
  | unpack (ch : Channel)
  /-- ENCODE (43_pixel_codec.md R112). -/
  | encode
  /-- DECODE (43_pixel_codec.md R113). -/
  | decode
  /-- GETPIXEL (44_pixel_access.md R127). -/
  | getpixel
  /-- SETPIXEL (44_pixel_access.md R128). -/
  | setpixel
deriving DecidableEq, Repr

/-- The pseudo-instructions of 30_encoding.md R70. The types of the operands are the ranges the rule states. -/
inductive Pseudo where
  | setdesc (ch : Channel) (len : BitVec 8) (off : BitVec 5) (msbr : Bool)
  | setbpp (bits : BitVec 8)
  | setgeom (pitch xres yres : Word)
  | setxy (x y : Word)
  | setcolor (r g b a : Word)
  | getcolor
deriving DecidableEq, Repr

/-- Why a number is not decoded. -/
inductive DecodeError where
  /-- The verdict ILLEGAL of 30_encoding.md R66: the word is not one of the 14 command words. -/
  | illegalCommand
  /-- The number does not fit the 41 bits of a transaction (30_encoding.md R60). -/
  | notATransaction
deriving DecidableEq, Repr

end Sys2Proof
end

