-- ==== Sys2Proof/WellFormed.lean ====
section
/-! DEFINITION. Which instructions have an encoding of their own. -/

namespace Sys2Proof

/-- The 14 legal command words, as 30_encoding.md R64 lists them. -/
def commandWords : List Word :=
  [0x00000001, 0x00000002, 0x00000010, 0x00000110, 0x00000210, 0x00000310, 0x00000011,
   0x00000111, 0x00000211, 0x00000311, 0x00000020, 0x00000021, 0x00000030, 0x00000031]

/-- Every instruction is well-formed but a WR that spells a command: a WR to CMD (number 0x1F) whose data is one of the
14 command words is that command, and has the command's constructor (30_encoding.md R62). A WR to CMD with any other
data is a well-formed WR, whose command is ILLEGAL (R66). DEDUCED, safe (log 3). -/
def Instr.wellFormed : Instr → Bool
  | .wr addr wdata => !(addr == 0x1F && commandWords.contains wdata)
  | .rd _ => true
  | .fmtset => true
  | .bufset => true
  | .pack _ => true
  | .unpack _ => true
  | .encode => true
  | .decode => true
  | .getpixel => true
  | .setpixel => true

end Sys2Proof
end

