-- ==== Sys2Proof/Decode.lean ====
section
/-! DEFINITION. The decoder of 30_encoding.md (R60 to R66), total, and after it the encoder, written from the same
tables. -/

namespace Sys2Proof

/-- The channel that the field CH selects (30_encoding.md R65). -/
def channelOfSelect (ch : BitVec 2) : Channel :=
  if ch = 0 then .red else if ch = 1 then .green else if ch = 2 then .blue else .alpha

/-- `decode_command` of 30_encoding.md R66, with the verdict ILLEGAL as an error by name. -/
def decodeCommand (w : Word) : Except DecodeError Command :=
  let zero := w.extractLsb' 10 22
  let ch := w.extractLsb' 8 2
  let opc := w.extractLsb' 0 8
  if zero ≠ 0 then .error .illegalCommand
  else if opc = 0x10 then .ok (.pack (channelOfSelect ch))
  else if opc = 0x11 then .ok (.unpack (channelOfSelect ch))
  else if ch ≠ 0 then .error .illegalCommand
  else if opc = 0x01 then .ok .fmtset
  else if opc = 0x02 then .ok .bufset
  else if opc = 0x20 then .ok .encode
  else if opc = 0x21 then .ok .decode
  else if opc = 0x30 then .ok .getpixel
  else if opc = 0x31 then .ok .setpixel
  else .error .illegalCommand

/-- A command as the instruction of its row. -/
def instrOfCommand : Command → Instr
  | .fmtset => .fmtset
  | .bufset => .bufset
  | .pack ch => .pack ch
  | .unpack ch => .unpack ch
  | .encode => .encode
  | .decode => .decode
  | .getpixel => .getpixel
  | .setpixel => .setpixel

/-- `decode_transaction` of 30_encoding.md R62. A WR to CMD that spells no command stays a WR: executing it raises
IllegalCommand (40_host_access.md R81, R82). -/
def decode (t : Transaction) : Instr :=
  let we := t.getLsbD 40
  let addr := t.extractLsb' 32 8
  let wdata := t.extractLsb' 0 32
  if we = false then .rd addr
  else if addr ≠ 0x1F then .wr addr wdata
  else match decodeCommand wdata with
    | .ok c => instrOfCommand c
    | .error _ => .wr addr wdata

/-- The decoder on any number: one of more than 41 bits is refused by name. -/
def decodeNumber (w : Nat) : Except DecodeError Instr :=
  if w < 2 ^ 41 then .ok (decode (BitVec.ofNat 41 w)) else .error .notATransaction

/-- A field with its bit 0 at bit `lo` of a word of `w` bits (00_scope.md R8). -/
def fieldAt {n : Nat} (w lo : Nat) (v : BitVec n) : BitVec w := v.setWidth w <<< lo

/-- The transaction `WR addr, wdata` (30_encoding.md R60). -/
def wrTransaction (addr : RegNumber) (wdata : Word) : Transaction :=
  fieldAt 41 40 1#1 ||| fieldAt 41 32 addr ||| fieldAt 41 0 wdata

/-- The transaction `RD addr`; the ignored field is emitted as 0 (30_encoding.md R60). -/
def rdTransaction (addr : RegNumber) : Transaction :=
  fieldAt 41 40 0#1 ||| fieldAt 41 32 addr

/-- The field CH that selects a channel (30_encoding.md R65). -/
def selectOfChannel : Channel → BitVec 2
  | .red => 0
  | .green => 1
  | .blue => 2
  | .alpha => 3

/-- A command word with its fields CH and OPC; the field ZERO is 0 (30_encoding.md R63). -/
def commandWord (ch : BitVec 2) (opc : BitVec 8) : Word :=
  fieldAt 32 8 ch ||| fieldAt 32 0 opc

/-- The command word of a command (30_encoding.md R64, R69). -/
def encodeCommand : Command → Word
  | .fmtset => commandWord 0 0x01
  | .bufset => commandWord 0 0x02
  | .pack ch => commandWord (selectOfChannel ch) 0x10
  | .unpack ch => commandWord (selectOfChannel ch) 0x11
  | .encode => commandWord 0 0x20
  | .decode => commandWord 0 0x21
  | .getpixel => commandWord 0 0x30
  | .setpixel => commandWord 0 0x31

/-- The transaction of an instruction; a command is a WR of its word to CMD (30_encoding.md R60, R62, R69). -/
def encode : Instr → Transaction
  | .wr addr wdata => wrTransaction addr wdata
  | .rd addr => rdTransaction addr
  | .fmtset => wrTransaction 0x1F (encodeCommand .fmtset)
  | .bufset => wrTransaction 0x1F (encodeCommand .bufset)
  | .pack ch => wrTransaction 0x1F (encodeCommand (.pack ch))
  | .unpack ch => wrTransaction 0x1F (encodeCommand (.unpack ch))
  | .encode => wrTransaction 0x1F (encodeCommand .encode)
  | .decode => wrTransaction 0x1F (encodeCommand .decode)
  | .getpixel => wrTransaction 0x1F (encodeCommand .getpixel)
  | .setpixel => wrTransaction 0x1F (encodeCommand .setpixel)

/-- What the table's bits `w` of a row of `nbits` bits say, if they say an instruction. A row of format CMD has the 32
bits of a command word; a row of format BUS has the 41 bits of a transaction. DESIGN CHOICE, safe (log 4). -/
def decodeTableWord (nbits w : Nat) : Option Instr :=
  if nbits ≤ 32 then
    if w < 2 ^ 32 then
      match decodeCommand (BitVec.ofNat 32 w) with
      | .ok c => some (instrOfCommand c)
      | .error _ => none
    else none
  else
    match decodeNumber w with
    | .ok i => some i
    | .error _ => none

/-- The transaction that delivers the table's bits `w` of a row of `nbits` bits: a command word travels as the data of a
WR to CMD (30_encoding.md R63, R69). DESIGN CHOICE, safe (log 4). -/
def tableTransaction (nbits w : Nat) : Transaction :=
  if nbits ≤ 32 then wrTransaction 0x1F (BitVec.ofNat 32 w) else BitVec.ofNat 41 w

end Sys2Proof
end

