-- ==== Sys2Proof/Config.lean ====
section
/-! DEFINITION. What the spec leaves to the platform: the two OPEN parameters of 00_scope.md R7, the region's contents at
the start and what surrounds each byte access, which no proof can evaluate, and the byte that a region offset with no
listed byte reads as. -/

namespace Sys2Proof.Machine

/-- What the environment can do to the region (20_memory.md R52, R53). -/
inductive EnvAction where
  | read (off : Nat)
  | write (off : Nat) (v : Byte)
deriving DecidableEq, Repr

/-- What surrounds one byte access of the unit: the environment's accesses just before it (20_memory.md R47), and the
place of the byte in the order of the pixel's bytes, which is open (20_memory.md R48): it is put behind `place` of the
bytes that follow it in rising order. DESIGN CHOICE (log 8). -/
structure Slot where
  place : Nat
  acts : List EnvAction
deriving DecidableEq, Repr

end Sys2Proof.Machine

namespace Sys2Proof.Config

/-- `REGION_SIZE`, the size in bytes of the borrowed region, at the start of a run: OPEN (00_scope.md R7, D12), "a natural
number below 2^64". DESIGN CHOICE, safe (log 6): no value is chosen. -/
opaque regionSize : Fin (2 ^ 64)

/-- `ENV_MAY_WRITE` at the start of a run: OPEN (00_scope.md R7, D21). DESIGN CHOICE, safe (log 7): no value is chosen. -/
opaque envMayWrite : Bool

/-- What surrounds the byte accesses of a run, one slot for each, from the first on: open (20_memory.md R47, R48). The
list's length is open too. DESIGN CHOICE, safe (log 8): no order and no interleaving is chosen. -/
opaque schedule : List Machine.Slot

/-- The contents of the region at the start of a run, by region offset: an argument of the model (10_state.md R27), so
no contents are chosen (log 5). -/
opaque regionByte : Nat → Byte

/-- What a region offset that the memory does not list reads as. It is part of the form in which the bytes of a region are
written as data, and no contents: any bytes can be written so. DESIGN CHOICE, safe (log 5). -/
def unlistedByte : Byte := 0x00

end Sys2Proof.Config
end

