-- ==== Sys2Proof/Machine/Region.lean ====
section
/-! DEFINITION. The bytes of the borrowed region as plain data (20_memory.md R40), and the data that given contents are. -/

namespace Sys2Proof.Machine

/-- The bytes of the borrowed region (20_memory.md R40): region offsets strictly rising, and no byte listed that equals
`Config.unlistedByte`. -/
abbrev Memory := List Host.Cell

/-- The memory of `size` bytes that holds `contents off` at each offset `off`, in canonical form: a byte that reads the
same when it is not listed is not listed. -/
def Memory.ofContents (contents : Nat → Byte) (size : Nat) : Memory :=
  ((List.range size).map fun off => (off, contents off)).filter fun c => decide (c.2 ≠ Config.unlistedByte)

end Sys2Proof.Machine
end

