-- ==== Sys2Proof/Machine/State.lean ====
section
/-! DEFINITION. The state of FBCORE as plain data: the registers of 10_state.md R11 in the five groups of R10, and the
world outside the unit (the borrowed region, the two arguments of the model, the host's list of transactions and the
environment's part). A field of a register exists for the bits that have storage; reserved bits have none
(10_state.md R25; DEDUCED, safe, log 9). -/

namespace Sys2Proof.Machine

/-- The five faults of 60_exceptions.md R146. The spec describes what a fault does (R145: STATUS.FAULT and FAULTCODE are
set, the unit halts, RD still answers), so a fault is recorded in a NEXT state by `takeFault` and no meaning answers
`Host.Outcome.fault`. DEDUCED, safe (log 1). -/
inductive Fault where
  /-- Code 1. Raised by a WR to CMD whose data is none of the 14 command words. Safe. -/
  | illegalCommand
  /-- Code 2. Raised by a WR to a read-only or unmapped register and by a RD of CMD or of an unmapped one. Safe. -/
  | badAccess
  /-- Code 3. Raised by BUFSET, PACK, UNPACK, ENCODE and DECODE when FMT_VALID is 0. Safe. -/
  | noFormat
  /-- Code 4. Raised by GETPIXEL and SETPIXEL when BUF_VALID is 0. Safe. -/
  | noBuffer
  /-- Code 5. Raised by GETPIXEL and SETPIXEL when an in-bounds pixel does not lie inside the region. Safe. -/
  | regionFault
deriving DecidableEq, Repr

/-- Why the model gives an instruction no meaning. -/
inductive Refusal where
  /-- An instruction that is not modelled. Raised by no arm: every instruction has its meaning. Safe. -/
  | notModelled (mnemonic : String)
deriving DecidableEq, Repr

/-- The reasons of the error result UnsupportedFormat (60_exceptions.md R141). -/
inductive FormatError where
  | lengthTooLarge
  | msbRight
  | badPixelWidth
deriving DecidableEq, Repr

/-- One channel of the device-reported descriptor: LENGTH 7:0, OFFSET 12:8, MSBR 16 (10_state.md R13). -/
structure DescChannel where
  length : BitVec 8
  offset : BitVec 5
  msbr : Bool
deriving DecidableEq, Repr

/-- Group (a), the descriptor registers 0x00 to 0x07 (10_state.md R13 to R15). -/
structure Descriptor where
  /-- 0x00 DESC_RED -/
  red : DescChannel
  /-- 0x01 DESC_GREEN -/
  green : DescChannel
  /-- 0x02 DESC_BLUE -/
  blue : DescChannel
  /-- 0x03 DESC_ALPHA -/
  alpha : DescChannel
  /-- 0x04 DESC_BPP, field BITS -/
  bpp : BitVec 8
  /-- 0x05 DESC_PITCH -/
  pitch : Word
  /-- 0x06 DESC_XRES -/
  xres : Word
  /-- 0x07 DESC_YRES -/
  yres : Word
deriving DecidableEq, Repr

/-- A ChannelSpec: LENGTH 4:0, OFFSET 12:8 (10_state.md R16; 42_channel_codec.md R100). -/
structure ChannelSpec where
  length : BitVec 5
  offset : BitVec 5
deriving DecidableEq, Repr

/-- Group (b), the latched PixelFormat, registers 0x08 to 0x0C (10_state.md R16, R17). -/
structure PixelFormat where
  /-- 0x08 FMT_RED -/
  red : ChannelSpec
  /-- 0x09 FMT_GREEN -/
  green : ChannelSpec
  /-- 0x0A FMT_BLUE -/
  blue : ChannelSpec
  /-- 0x0B FMT_ALPHA -/
  alpha : ChannelSpec
  /-- 0x0C FMT_BYPP, field BYPP -/
  bytesPerPixel : BitVec 3
deriving DecidableEq, Repr

/-- Group (c), the latched PixelBuffer, registers 0x0D to 0x0F (10_state.md R18). -/
structure PixelBuffer where
  /-- 0x0D BUF_PITCH -/
  pitch : Word
  /-- 0x0E BUF_WIDTH -/
  width : Word
  /-- 0x0F BUF_HEIGHT -/
  height : Word
deriving DecidableEq, Repr

/-- A CanonicalColor, four 16-bit channels (10_state.md R20). -/
structure Color where
  r : Half
  g : Half
  b : Half
  a : Half
deriving DecidableEq, Repr

/-- Group (d), the operand and result registers 0x10 to 0x17 (10_state.md R19 to R22). -/
structure OperandRegs where
  /-- 0x10 X -/
  x : Word
  /-- 0x11 Y -/
  y : Word
  /-- 0x12 to 0x15 CR, CG, CB, CA -/
  color : Color
  /-- 0x16 PIX -/
  pix : Word
  /-- 0x17 V16 -/
  v16 : Half
deriving DecidableEq, Repr

/-- Group (e), register 0x1E STATUS (10_state.md R23). CMD (0x1F) has no storage (R24). -/
structure Status where
  /-- bit 0 -/
  fmtValid : Bool
  /-- bit 1 -/
  bufValid : Bool
  /-- bit 2 -/
  fault : Bool
  /-- bit 3 -/
  zlw : Bool
  /-- bits 5:4 -/
  fmtErr : BitVec 2
  /-- bits 10:8 -/
  faultCode : BitVec 3
deriving DecidableEq, Repr

/-- What can come to the unit and its region from outside: a host transaction (00_scope.md R4), a reset
(70_reset_and_hazards.md R160), or an access of the environment between two transactions (20_memory.md R52, R53). -/
inductive Event where
  | transaction (t : Transaction)
  | reset
  | environment (act : EnvAction)
deriving DecidableEq, Repr

/-- Who accesses a byte of the region. -/
inductive Agent where
  | unit
  | environment
deriving DecidableEq, Repr

/-- The two memory primitives (20_memory.md R41, R42). -/
inductive AccessKind where
  | read
  | write
deriving DecidableEq, Repr

/-- One byte access, as seen on the region. -/
structure Access where
  agent : Agent
  kind : AccessKind
  off : Nat
  val : Byte
deriving DecidableEq, Repr

/-- Everything outside the unit that its transactions meet. No register is here. -/
structure World where
  /-- The bytes of the borrowed region (10_state.md R27). -/
  region : Memory
  /-- `REGION_SIZE` (00_scope.md R7). -/
  regionSize : Fin (2 ^ 64)
  /-- `ENV_MAY_WRITE` (00_scope.md R7; 20_memory.md R53). -/
  envMayWrite : Bool
  /-- The model's own: the outside events still to come, the next one first (00_scope.md R5; log 2). -/
  script : List Event
  /-- The model's own: one slot for each byte access still to come, the next one first (log 8). -/
  schedule : List Slot
  /-- The RDATA of the last transaction; none after a WR (30_encoding.md R61). -/
  response : Option Word
  /-- The model's own: the byte accesses of the last step, the oldest first (log 10). -/
  traffic : List Access
deriving DecidableEq, Repr

/-- The machine. -/
structure State where
  desc : Descriptor
  fmt : PixelFormat
  buf : PixelBuffer
  opr : OperandRegs
  status : Status
  world : World
deriving DecidableEq, Repr

/-- A descriptor channel of zeros. -/
def DescChannel.zero : DescChannel := { length := 0, offset := 0, msbr := false }

/-- The descriptor after reset (10_state.md R36). -/
def Descriptor.zero : Descriptor :=
  { red := .zero, green := .zero, blue := .zero, alpha := .zero, bpp := 0, pitch := 0, xres := 0, yres := 0 }

/-- A ChannelSpec of zeros. -/
def ChannelSpec.zero : ChannelSpec := { length := 0, offset := 0 }

/-- The FMT_* registers when no PixelFormat is constructed (10_state.md R16, R17, R36). -/
def PixelFormat.zero : PixelFormat :=
  { red := .zero, green := .zero, blue := .zero, alpha := .zero, bytesPerPixel := 0 }

/-- The BUF_* registers when no PixelBuffer is constructed (10_state.md R18, R36). -/
def PixelBuffer.zero : PixelBuffer := { pitch := 0, width := 0, height := 0 }

/-- Black with every channel 0. -/
def Color.zero : Color := { r := 0, g := 0, b := 0, a := 0 }

/-- The operand registers after reset (10_state.md R36). -/
def OperandRegs.zero : OperandRegs := { x := 0, y := 0, color := .zero, pix := 0, v16 := 0 }

/-- STATUS after reset (10_state.md R36). -/
def Status.zero : Status :=
  { fmtValid := false, bufValid := false, fault := false, zlw := false, fmtErr := 0, faultCode := 0 }

/-- The surroundings at the start of a run, with nothing to come from outside: the region's contents, its size,
ENV_MAY_WRITE and the schedule are open (10_state.md R27; logs 2, 5, 6, 7, 8, 10). -/
def World.initial : World :=
  { region := Memory.ofContents Config.regionByte Config.regionSize.val
    regionSize := Config.regionSize
    envMayWrite := Config.envMayWrite
    script := []
    schedule := Config.schedule
    response := none
    traffic := [] }

/-- The machine right after reset: every register is 0 (10_state.md R36; 70_reset_and_hazards.md R160). -/
def State.reset : State :=
  { desc := .zero, fmt := .zero, buf := .zero, opr := .zero, status := .zero, world := .initial }

end Sys2Proof.Machine
end

