-- ==== Sys2Proof/Machine/Flags.lean ====
section
/-! DEFINITION. Every field of STATUS and what is computed for it (10_state.md R23; 41_configuration.md R93;
60_exceptions.md R141, R146). -/

namespace Sys2Proof.Machine

/-- The FAULTCODE of a fault (60_exceptions.md R146). -/
def Fault.code : Fault → BitVec 3
  | .illegalCommand => 1
  | .badAccess => 2
  | .noFormat => 3
  | .noBuffer => 4
  | .regionFault => 5

/-- The FMT_ERR code of a reason (60_exceptions.md R141). -/
def FormatError.code : FormatError → BitVec 2
  | .lengthTooLarge => 1
  | .msbRight => 2
  | .badPixelWidth => 3

/-- The zero-length warning `zlw` (41_configuration.md R93); the alpha channel does not enter. -/
def zeroLengthWarning (f : PixelFormat) : Bool :=
  decide (f.red.length = 0 ∨ f.green.length = 0 ∨ f.blue.length = 0)

/-- The bit pattern of a flag. -/
def flagBit (b : Bool) : BitVec 1 := BitVec.ofBool b

/-- STATUS as a RD returns it: the fields of 10_state.md R23, reserved bits 0. -/
def Status.toWord (st : Status) : Word :=
  fieldAt 32 8 st.faultCode ||| fieldAt 32 4 st.fmtErr ||| fieldAt 32 3 (flagBit st.zlw) |||
    fieldAt 32 2 (flagBit st.fault) ||| fieldAt 32 1 (flagBit st.bufValid) ||| fieldAt 32 0 (flagBit st.fmtValid)

end Sys2Proof.Machine
end

