-- ==== Sys2Proof/Machine/Operands.lean ====
section
/-! DEFINITION. Every operand form: the register space (10_state.md R11), the fields of its registers (R13 to R25), the
latched ChannelSpecs, and the inputs of the pixel commands (44_pixel_access.md R120 to R123). -/

namespace Sys2Proof.Machine

/-- `mask(n)` at width `w`: n one bits at the bottom (00_scope.md R8). -/
def mask (w n : Nat) : BitVec w := BitVec.ofNat w (2 ^ n - 1)

/-! ### The register space -/

/-- The number of a register (10_state.md R11). -/
def regNumber : Reg → RegNumber
  | .descRed => 0x00
  | .descGreen => 0x01
  | .descBlue => 0x02
  | .descAlpha => 0x03
  | .descBpp => 0x04
  | .descPitch => 0x05
  | .descXres => 0x06
  | .descYres => 0x07
  | .fmtRed => 0x08
  | .fmtGreen => 0x09
  | .fmtBlue => 0x0A
  | .fmtAlpha => 0x0B
  | .fmtBypp => 0x0C
  | .bufPitch => 0x0D
  | .bufWidth => 0x0E
  | .bufHeight => 0x0F
  | .x => 0x10
  | .y => 0x11
  | .cr => 0x12
  | .cg => 0x13
  | .cb => 0x14
  | .ca => 0x15
  | .pix => 0x16
  | .v16 => 0x17
  | .status => 0x1E
  | .cmd => 0x1F

/-- The 26 mapped registers (10_state.md R11). -/
def allRegs : List Reg :=
  [.descRed, .descGreen, .descBlue, .descAlpha, .descBpp, .descPitch, .descXres, .descYres, .fmtRed, .fmtGreen,
   .fmtBlue, .fmtAlpha, .fmtBypp, .bufPitch, .bufWidth, .bufHeight, .x, .y, .cr, .cg, .cb, .ca, .pix, .v16, .status, .cmd]

/-- The register a number names, if it is mapped (10_state.md R11). -/
def regOfNumber (addr : RegNumber) : Option Reg := allRegs.find? fun r => regNumber r == addr

/-- The access rights of a register (10_state.md R11). -/
def regRights : Reg → Rights
  | .descRed => .readWrite
  | .descGreen => .readWrite
  | .descBlue => .readWrite
  | .descAlpha => .readWrite
  | .descBpp => .readWrite
  | .descPitch => .readWrite
  | .descXres => .readWrite
  | .descYres => .readWrite
  | .fmtRed => .readOnly
  | .fmtGreen => .readOnly
  | .fmtBlue => .readOnly
  | .fmtAlpha => .readOnly
  | .fmtBypp => .readOnly
  | .bufPitch => .readOnly
  | .bufWidth => .readOnly
  | .bufHeight => .readOnly
  | .x => .readWrite
  | .y => .readWrite
  | .cr => .readWrite
  | .cg => .readWrite
  | .cb => .readWrite
  | .ca => .readWrite
  | .pix => .readWrite
  | .v16 => .readWrite
  | .status => .readOnly
  | .cmd => .writeOnly

/-! ### Registers as words: reserved bits read as 0 and drop what is written (10_state.md R25) -/

/-- A descriptor channel as a RD returns it (10_state.md R13). -/
def DescChannel.toWord (d : DescChannel) : Word :=
  fieldAt 32 16 (flagBit d.msbr) ||| fieldAt 32 8 d.offset ||| fieldAt 32 0 d.length

/-- A descriptor channel as a WR stores it (10_state.md R13, R25). -/
def DescChannel.ofWord (w : Word) : DescChannel :=
  { length := w.extractLsb' 0 8, offset := w.extractLsb' 8 5, msbr := w.getLsbD 16 }

/-- A latched ChannelSpec as a RD returns it (10_state.md R16). -/
def ChannelSpec.toWord (c : ChannelSpec) : Word :=
  fieldAt 32 8 c.offset ||| fieldAt 32 0 c.length

/-- A register of fewer than 32 stored bits as a RD returns it: the bits above are hardwired 0 (10_state.md R25). -/
def lowField {n : Nat} (v : BitVec n) : Word := v.setWidth 32

/-- `x[r]`: what a RD of a register returns (40_host_access.md R83). CMD has no storage (10_state.md R24). -/
def readRegister (s : State) : Reg → Word
  | .descRed => s.desc.red.toWord
  | .descGreen => s.desc.green.toWord
  | .descBlue => s.desc.blue.toWord
  | .descAlpha => s.desc.alpha.toWord
  | .descBpp => lowField s.desc.bpp
  | .descPitch => s.desc.pitch
  | .descXres => s.desc.xres
  | .descYres => s.desc.yres
  | .fmtRed => s.fmt.red.toWord
  | .fmtGreen => s.fmt.green.toWord
  | .fmtBlue => s.fmt.blue.toWord
  | .fmtAlpha => s.fmt.alpha.toWord
  | .fmtBypp => lowField s.fmt.bytesPerPixel
  | .bufPitch => s.buf.pitch
  | .bufWidth => s.buf.width
  | .bufHeight => s.buf.height
  | .x => s.opr.x
  | .y => s.opr.y
  | .cr => lowField s.opr.color.r
  | .cg => lowField s.opr.color.g
  | .cb => lowField s.opr.color.b
  | .ca => lowField s.opr.color.a
  | .pix => s.opr.pix
  | .v16 => lowField s.opr.v16
  | .status => s.status.toWord
  | .cmd => 0

/-- `x[r] <- storable(r, w)`: a WR of a read-write register (40_host_access.md R81). A register that the host may not
write keeps its value; a WR that names one faults before it comes here. -/
def writeRegister (s : State) (w : Word) : Reg → State
  | .descRed => { s with desc := { s.desc with red := .ofWord w } }
  | .descGreen => { s with desc := { s.desc with green := .ofWord w } }
  | .descBlue => { s with desc := { s.desc with blue := .ofWord w } }
  | .descAlpha => { s with desc := { s.desc with alpha := .ofWord w } }
  | .descBpp => { s with desc := { s.desc with bpp := w.setWidth 8 } }
  | .descPitch => { s with desc := { s.desc with pitch := w } }
  | .descXres => { s with desc := { s.desc with xres := w } }
  | .descYres => { s with desc := { s.desc with yres := w } }
  | .x => { s with opr := { s.opr with x := w } }
  | .y => { s with opr := { s.opr with y := w } }
  | .cr => { s with opr := { s.opr with color := { s.opr.color with r := w.setWidth 16 } } }
  | .cg => { s with opr := { s.opr with color := { s.opr.color with g := w.setWidth 16 } } }
  | .cb => { s with opr := { s.opr with color := { s.opr.color with b := w.setWidth 16 } } }
  | .ca => { s with opr := { s.opr with color := { s.opr.color with a := w.setWidth 16 } } }
  | .pix => { s with opr := { s.opr with pix := w } }
  | .v16 => { s with opr := { s.opr with v16 := w.setWidth 16 } }
  | .fmtRed => s
  | .fmtGreen => s
  | .fmtBlue => s
  | .fmtAlpha => s
  | .fmtBypp => s
  | .bufPitch => s
  | .bufWidth => s
  | .bufHeight => s
  | .status => s
  | .cmd => s

/-! ### Operands of the commands -/

/-- `chan(c)`: the latched ChannelSpec of a channel (42_channel_codec.md R100). -/
def PixelFormat.channel (f : PixelFormat) : Channel → ChannelSpec
  | .red => f.red
  | .green => f.green
  | .blue => f.blue
  | .alpha => f.alpha

/-- A channel of the descriptor, `d.ch[c]` (41_configuration.md R90). -/
def Descriptor.channel (d : Descriptor) : Channel → DescChannel
  | .red => d.red
  | .green => d.green
  | .blue => d.blue
  | .alpha => d.alpha

/-- A colour's component of a channel (43_pixel_codec.md R110, R111). -/
def Color.component (c : Color) : Channel → Half
  | .red => c.r
  | .green => c.g
  | .blue => c.b
  | .alpha => c.a

/-- `xs` of 44_pixel_access.md R120. -/
def pixelColumn (s : State) : Int := s.opr.x.toInt

/-- `ys` of 44_pixel_access.md R120. -/
def pixelRow (s : State) : Int := s.opr.y.toInt

/-- `n`, the bytes of one pixel (44_pixel_access.md R120). -/
def PixelFormat.byteCount (f : PixelFormat) : Nat := f.bytesPerPixel.toNat

/-- `InBounds(xs, ys)` for a buffer (44_pixel_access.md R121). -/
abbrev InBounds (b : PixelBuffer) (xs ys : Int) : Prop :=
  0 ≤ xs ∧ xs < b.width.toNat ∧ 0 ≤ ys ∧ ys < b.height.toNat

/-- `PixelAddr(xs, ys)`, the address calculator, on exact numbers (44_pixel_access.md R122). -/
def pixelAddr (b : PixelBuffer) (f : PixelFormat) (xs ys : Int) : Nat :=
  ys.toNat * b.pitch.toNat + xs.toNat * f.byteCount

/-- The coordinates that X and Y hold are in bounds. -/
abbrev State.inBounds (s : State) : Prop := InBounds s.buf (pixelColumn s) (pixelRow s)

/-- The region offset of the pixel that X and Y name. -/
def State.pixelOffset (s : State) : Nat := pixelAddr s.buf s.fmt (pixelColumn s) (pixelRow s)

/-- `Assemble(b, n)` (44_pixel_access.md R125). -/
def assemble (b : Nat → Byte) (n : Nat) : Word :=
  (List.range n).foldl (fun p i => p ||| ((b i).setWidth 32 <<< (8 * i))) 0

/-- `Disassemble(p, n)[i]` (44_pixel_access.md R126). -/
def disassemble (p : Word) (i : Nat) : Byte := (p >>> (8 * i)).setWidth 8

end Sys2Proof.Machine
end

