-- ==== Sys2Proof/Machine/Ops.lean ====
section
/-! DEFINITION. The operations the meanings share: the region's bytes (20_memory.md), the environment's part, the byte
accesses of one pixel, faults and the error result (60_exceptions.md), the host port, and reset. -/

namespace Sys2Proof.Machine

/-! ### The bytes of the region -/

/-- The byte at an offset; one that is not listed reads as `Config.unlistedByte`. -/
def Memory.read : Memory → Nat → Byte
  | [], _ => Config.unlistedByte
  | (b, w) :: m, a => if a = b then w else Memory.read m a

/-- The memory with the byte at an offset replaced. The canonical form is kept: a byte that would read the same when it
is not listed is not listed. -/
def Memory.write : Memory → Nat → Byte → Memory
  | [], a, v => if v = Config.unlistedByte then [] else [(a, v)]
  | (b, w) :: m, a, v =>
    if a < b then (if v = Config.unlistedByte then (b, w) :: m else (a, v) :: (b, w) :: m)
    else if a = b then (if v = Config.unlistedByte then m else (a, v) :: m)
    else (b, w) :: Memory.write m a v

/-- The listed offsets rise strictly from one that is at least `lo`, and no listed byte is the unlisted one. -/
def Memory.wfFrom : Nat → Memory → Bool
  | _, [] => true
  | lo, (b, w) :: m => decide (lo ≤ b) && decide (w ≠ Config.unlistedByte) && Memory.wfFrom (b + 1) m

/-- The canonical form of a memory. -/
def Memory.wf (m : Memory) : Bool := Memory.wfFrom 0 m

/-! ### The region and its agents -/

/-- One more byte access is seen on the region. -/
def World.observe (w : World) (a : Access) : World := { w with traffic := w.traffic ++ [a] }

/-- A byte access at an offset is admitted (20_memory.md R58). -/
abbrev World.admits (w : World) (off : Nat) : Prop := off < w.regionSize.val

/-- `MemWrite(off, 1, v)` by an agent (20_memory.md R42). -/
def World.memWrite (w : World) (who : Agent) (off : Nat) (v : Byte) : World :=
  World.observe { w with region := w.region.write off v } { agent := who, kind := .write, off := off, val := v }

/-- `MemRead(off, 1)` by an agent: what it returns is `w.region.read off` (20_memory.md R41), and the region does not
change (R50). -/
def World.memRead (w : World) (who : Agent) (off : Nat) : World :=
  w.observe { agent := who, kind := .read, off := off, val := w.region.read off }

/-- What the environment does to the region (20_memory.md R52, R53). It has no byte outside the region, and writes none
when ENV_MAY_WRITE does not hold: such an action does not happen. DEDUCED, safe (log 7). -/
def World.environmentAct (w : World) : EnvAction → World
  | .read off => if w.admits off then w.memRead .environment off else w
  | .write off v => if w.envMayWrite = true ∧ w.admits off then w.memWrite .environment off v else w

/-- The environment's accesses before the next byte access of the unit (20_memory.md R47); with no slot left there are
none. -/
def World.nextSlot (w : World) : World :=
  match w.schedule with
  | [] => w
  | slot :: rest => slot.acts.foldl World.environmentAct { w with schedule := rest }

/-- `x` put behind `k` of `ys`, at the end when there are fewer. -/
def putBehind {α : Type} (k : Nat) (x : α) (ys : List α) : List α := ys.take k ++ x :: ys.drop k

/-- The order that a list of places gives to the bytes of a pixel: every order is given by some list (20_memory.md R48),
and no places left means the order of the list. -/
def arrange {α : Type} : List Nat → List α → List α
  | _, [] => []
  | places, x :: xs => putBehind (places.headD 0) x (arrange places.tail xs)

/-- The places of the slots to come. -/
def World.places (w : World) : List Nat := w.schedule.map Slot.place

/-- The byte reads of a pixel in the order given, each after its slot; the bytes read, by offset. -/
def World.readBytes : List Nat → World → World × List Host.Cell
  | [], w => (w, [])
  | off :: offs, w =>
    let w' := w.nextSlot
    let rest := World.readBytes offs (w'.memRead .unit off)
    (rest.1, (off, w'.region.read off) :: rest.2)

/-- The byte writes of a pixel in the order given, each after its slot. -/
def World.writeBytes : List Host.Cell → World → World
  | [], w => w
  | (off, v) :: cells, w => World.writeBytes cells (w.nextSlot.memWrite .unit off v)

/-- The region offsets of the `n` bytes of a pixel at `a` (44_pixel_access.md R123). -/
def pixelOffsets (a n : Nat) : List Nat := (List.range n).map fun i => a + i

/-- The bytes of a packed pixel at the offsets they are stored at (44_pixel_access.md R123, R126). -/
def pixelCells (a n : Nat) (p : Word) : List Host.Cell := (List.range n).map fun i => (a + i, disassemble p i)

/-- All bytes of the pixel are admitted (20_memory.md R58; 44_pixel_access.md R127, R128). -/
abbrev World.admitsPixel (w : World) (a n : Nat) : Prop := ¬ a + n > w.regionSize.val

/-- The byte read at an offset. -/
def byteAt (cells : List Host.Cell) (off : Nat) : Byte := Memory.read cells off

/-- The packed pixel of `n` bytes at `a`, none when the region does not hold it: then no byte is read
(44_pixel_access.md R127; 20_memory.md R58). -/
def World.readPixel (w : World) (a n : Nat) : Option (World × Word) :=
  if w.admitsPixel a n then
    let r := World.readBytes (arrange w.places (pixelOffsets a n)) w
    some (r.1, assemble (fun i => byteAt r.2 (a + i)) n)
  else none

/-- The low `n` bytes of a packed pixel stored at `a`, none when the region does not hold them: then no byte is written
(44_pixel_access.md R128; 20_memory.md R58). -/
def World.writePixel (w : World) (a n : Nat) (p : Word) : Option World :=
  if w.admitsPixel a n then some (World.writeBytes (arrange w.places (pixelCells a n p)) w) else none

/-! ### Faults and the error result -/

/-- `fault Name` (60_exceptions.md R145): the first fault is recorded in STATUS and halts the unit; nothing else changes,
and a unit that has faulted records no other. -/
def takeFault (f : Fault) (s : State) : State :=
  if s.status.fault then s else { s with status := { s.status with fault := true, faultCode := f.code } }

/-- `raise UnsupportedFormat(reason)` (60_exceptions.md R141). -/
def raiseUnsupportedFormat (e : FormatError) (s : State) : State :=
  { s with status := { s.status with fmtErr := e.code } }

/-! ### The host port -/

/-- The response of a transaction (30_encoding.md R61). -/
def State.answer (s : State) (r : Option Word) : State := { s with world := { s.world with response := r } }

/-- What every WR has in common: it has no response (30_encoding.md R61), and a halted unit ignores it
(40_host_access.md R81; 60_exceptions.md R145, R148 item 1). -/
def acceptWrite (act : State → State) (s : State) : Host.Outcome State Fault Refusal :=
  .next (if s.status.fault then s.answer none else act (s.answer none))

/-! ### Results -/

/-- PIX is replaced (10_state.md R21). -/
def State.setPix (s : State) (p : Word) : State := { s with opr := { s.opr with pix := p } }

/-- V16 is replaced (10_state.md R22). -/
def State.setV16 (s : State) (v : Half) : State := { s with opr := { s.opr with v16 := v } }

/-- CR, CG, CB and CA are replaced (10_state.md R20). -/
def State.setColor (s : State) (c : Color) : State := { s with opr := { s.opr with color := c } }

/-- The world outside is replaced: byte accesses change no register. -/
def State.setWorld (s : State) (w : World) : State := { s with world := w }

/-! ### Reset and the other outside events -/

/-- Reset (70_reset_and_hazards.md R160; 10_state.md R36): every register is 0; the region, REGION_SIZE and the
environment are as they were. The host port holds no response (DESIGN CHOICE, log 10). -/
def State.resetUnit (s : State) : State := State.answer { State.reset with world := s.world } none

/-- An access of the environment between two transactions (20_memory.md R52, R53). -/
def State.environmentStep (s : State) (act : EnvAction) : State := s.setWorld (s.world.environmentAct act)

/-- The state in which the next outside event runs: the event is taken from the script, and the byte accesses seen are
those of this event alone. -/
def State.beginEvent (s : State) (rest : List Event) : State :=
  { s with world := { s.world with script := rest, traffic := [] } }

/-- A transaction put before everything else that is to come from outside. -/
def State.pushTransaction (s : State) (t : Transaction) : State :=
  { s with world := { s.world with script := .transaction t :: s.world.script } }

end Sys2Proof.Machine
end

