-- ==== Sys2Proof/Machine/Configuration.lean ====
section
/-! DEFINITION. The configuration commands FMTSET and BUFSET (41_configuration.md). -/

namespace Sys2Proof.Machine

/-- A ChannelSpec made from a descriptor channel that passed `validate` (41_configuration.md R91, R92). -/
def DescChannel.spec (d : DescChannel) : ChannelSpec := { length := d.length.setWidth 5, offset := d.offset }

/-- `validate` (41_configuration.md R91): the three conditions, in the order of the rule (60_exceptions.md R148 item 5). -/
def validate (d : Descriptor) : Except FormatError PixelFormat :=
  if d.red.length.toNat > 16 ∨ d.green.length.toNat > 16 ∨ d.blue.length.toNat > 16 ∨ d.alpha.length.toNat > 16 then
    .error .lengthTooLarge
  else if d.red.msbr = true ∨ d.green.msbr = true ∨ d.blue.msbr = true ∨ d.alpha.msbr = true then
    .error .msbRight
  else if d.bpp.toNat = 0 ∨ d.bpp.toNat % 8 ≠ 0 ∨ d.bpp.toNat > 32 then
    .error .badPixelWidth
  else
    .ok { red := d.red.spec, green := d.green.spec, blue := d.blue.spec, alpha := d.alpha.spec,
          bytesPerPixel := BitVec.ofNat 3 (d.bpp.toNat / 8) }

/-- Step 1 of FMTSET: the old format and the old buffer cease to exist (41_configuration.md R92). -/
def discardFormat (s : State) : State :=
  { s with
    fmt := .zero
    buf := .zero
    status := { s.status with fmtValid := false, bufValid := false, zlw := false, fmtErr := 0 } }

/-- The successful end of FMTSET: the new format is latched (41_configuration.md R92, R93). -/
def latchFormat (f : PixelFormat) (s : State) : State :=
  { s with fmt := f, status := { s.status with zlw := zeroLengthWarning f, fmtValid := true } }

/-- The effect of FMTSET (41_configuration.md R92). -/
def fmtsetEffect (s : State) : State :=
  match validate s.desc with
  | .error e => raiseUnsupportedFormat e (discardFormat s)
  | .ok f => latchFormat f (discardFormat s)

/-- The geometry of the descriptor is latched (41_configuration.md R95). -/
def latchBuffer (s : State) : State :=
  { s with
    buf := { pitch := s.desc.pitch, width := s.desc.xres, height := s.desc.yres }
    status := { s.status with bufValid := true } }

/-- The effect of BUFSET (41_configuration.md R95). -/
def bufsetEffect (s : State) : State :=
  if s.status.fmtValid = false then takeFault .noFormat s else latchBuffer s

/-- FMTSET (41_configuration.md R92). -/
def execFmtset (s : State) : Host.Outcome State Fault Refusal := acceptWrite fmtsetEffect s

/-- BUFSET (41_configuration.md R95). -/
def execBufset (s : State) : Host.Outcome State Fault Refusal := acceptWrite bufsetEffect s

end Sys2Proof.Machine
end

