-- ==== Sys2Proof/Machine/ChannelCodec.lean ====
section
/-! DEFINITION. The channel codec: the pure functions `pack` and `unpack` and the commands PACK and UNPACK
(42_channel_codec.md). A length above 16, which no reachable state holds (10_state.md R26), shifts by 0 where the rule
writes `16 - len` (DESIGN CHOICE, log 12). -/

namespace Sys2Proof.Machine

/-- `pack` (42_channel_codec.md R101), in the 32-bit container of R103. -/
def pack (c : ChannelSpec) (v : Half) : Word :=
  let len := c.length.toNat
  if len = 0 then 0
  else
    let t := (v >>> (16 - len)) &&& mask 16 len
    t.setWidth 32 <<< c.offset.toNat

/-- `unpack` (42_channel_codec.md R102), from the 32-bit container of R103. -/
def unpack (c : ChannelSpec) (p : Word) : Half :=
  let len := c.length.toNat
  if len = 0 then 0xFFFF
  else
    let t := (p >>> c.offset.toNat) &&& mask 32 len
    t.setWidth 16 <<< (16 - len)

/-- The effect of PACK (42_channel_codec.md R104). -/
def packEffect (ch : Channel) (s : State) : State :=
  if s.status.fmtValid = false then takeFault .noFormat s
  else s.setPix (pack (s.fmt.channel ch) s.opr.v16)

/-- The effect of UNPACK (42_channel_codec.md R105). -/
def unpackEffect (ch : Channel) (s : State) : State :=
  if s.status.fmtValid = false then takeFault .noFormat s
  else s.setV16 (unpack (s.fmt.channel ch) s.opr.pix)

/-- PACK (42_channel_codec.md R104). -/
def execPack (ch : Channel) (s : State) : Host.Outcome State Fault Refusal := acceptWrite (packEffect ch) s

/-- UNPACK (42_channel_codec.md R105). -/
def execUnpack (ch : Channel) (s : State) : Host.Outcome State Fault Refusal := acceptWrite (unpackEffect ch) s

end Sys2Proof.Machine
end

