-- ==== Sys2Proof/Machine/PixelCodec.lean ====
section
/-! DEFINITION. The pixel codec: the pure functions `encode` and `decode` (here `encodeColor` and `decodePacked`) and
the commands ENCODE and DECODE (43_pixel_codec.md). -/

namespace Sys2Proof.Machine

/-- `encode(c, f)` (43_pixel_codec.md R110). -/
def encodeColor (c : Color) (f : PixelFormat) : Word :=
  pack f.red c.r ||| pack f.green c.g ||| pack f.blue c.b ||| pack f.alpha c.a

/-- `decode(p, f)` (43_pixel_codec.md R111). -/
def decodePacked (p : Word) (f : PixelFormat) : Color :=
  { r := unpack f.red p, g := unpack f.green p, b := unpack f.blue p, a := unpack f.alpha p }

/-- `chanmask`, the bits of a packed value that a channel covers (43_pixel_codec.md R119). -/
def channelMask (c : ChannelSpec) : Word :=
  if c.length.toNat = 0 then 0 else BitVec.ofNat 32 ((2 ^ c.length.toNat - 1) <<< c.offset.toNat)

/-- `M(f)`, the coverage mask of a format (43_pixel_codec.md R119). -/
def coverageMask (f : PixelFormat) : Word :=
  channelMask f.red ||| channelMask f.green ||| channelMask f.blue ||| channelMask f.alpha

/-- The effect of ENCODE (43_pixel_codec.md R112). -/
def encodeEffect (s : State) : State :=
  if s.status.fmtValid = false then takeFault .noFormat s
  else s.setPix (encodeColor s.opr.color s.fmt)

/-- The effect of DECODE (43_pixel_codec.md R113). -/
def decodeEffect (s : State) : State :=
  if s.status.fmtValid = false then takeFault .noFormat s
  else s.setColor (decodePacked s.opr.pix s.fmt)

/-- ENCODE (43_pixel_codec.md R112). -/
def execEncode (s : State) : Host.Outcome State Fault Refusal := acceptWrite encodeEffect s

/-- DECODE (43_pixel_codec.md R113). -/
def execDecode (s : State) : Host.Outcome State Fault Refusal := acceptWrite decodeEffect s

end Sys2Proof.Machine
end

