-- ==== Sys2Proof/Machine/PixelAccess.lean ====
section
/-! DEFINITION. The pixel commands GETPIXEL and SETPIXEL (44_pixel_access.md), over the bounds test and the address
calculator of Operands.lean and the byte accesses of Ops.lean. -/

namespace Sys2Proof.Machine

/-- The effect of GETPIXEL (44_pixel_access.md R127). Out of bounds no byte is read and the colour is that of packed
value 0; an in-bounds pixel that the region does not hold faults before any byte is read. -/
def getpixelEffect (s : State) : State :=
  if s.status.bufValid = false then takeFault .noBuffer s
  else if ¬ s.inBounds then s.setColor (decodePacked 0 s.fmt)
  else
    match s.world.readPixel s.pixelOffset s.fmt.byteCount with
    | none => takeFault .regionFault s
    | some (w, p) => (s.setWorld w).setColor (decodePacked p s.fmt)

/-- The effect of SETPIXEL (44_pixel_access.md R128). Out of bounds nothing happens; an in-bounds pixel that the region
does not hold faults before any byte is written. -/
def setpixelEffect (s : State) : State :=
  if s.status.bufValid = false then takeFault .noBuffer s
  else if ¬ s.inBounds then s
  else
    match s.world.writePixel s.pixelOffset s.fmt.byteCount (encodeColor s.opr.color s.fmt) with
    | none => takeFault .regionFault s
    | some w => s.setWorld w

/-- GETPIXEL (44_pixel_access.md R127). -/
def execGetpixel (s : State) : Host.Outcome State Fault Refusal := acceptWrite getpixelEffect s

/-- SETPIXEL (44_pixel_access.md R128). -/
def execSetpixel (s : State) : Host.Outcome State Fault Refusal := acceptWrite setpixelEffect s

end Sys2Proof.Machine
end

