-- ==== Sys2Proof/Machine/HostAccess.lean ====
section
/-! DEFINITION. The host access operations WR and RD (40_host_access.md). -/

namespace Sys2Proof.Machine

/-- `execute(c)` (40_host_access.md R82). -/
def runCommand : Command → State → State
  | .fmtset, s => fmtsetEffect s
  | .bufset, s => bufsetEffect s
  | .pack ch, s => packEffect ch s
  | .unpack ch, s => unpackEffect ch s
  | .encode, s => encodeEffect s
  | .decode, s => decodeEffect s
  | .getpixel, s => getpixelEffect s
  | .setpixel, s => setpixelEffect s

/-- A WR to CMD: the word is decoded and the command executed in the same transaction; CMD stores nothing
(40_host_access.md R82; 10_state.md R24). -/
def commandEffect (w : Word) (s : State) : State :=
  match decodeCommand w with
  | .error _ => takeFault .illegalCommand s
  | .ok c => runCommand c s

/-- The effect of WR on a unit that is not halted (40_host_access.md R81). -/
def wrEffect (addr : RegNumber) (wdata : Word) (s : State) : State :=
  match regOfNumber addr with
  | none => takeFault .badAccess s
  | some r =>
    match regRights r with
    | .writeOnly => commandEffect wdata s
    | .readWrite => writeRegister s wdata r
    | .readOnly => takeFault .badAccess s

/-- The register that a RD of a number answers with: every mapped one but CMD (40_host_access.md R83). -/
def readableReg (addr : RegNumber) : Option Reg :=
  match regOfNumber addr with
  | none => none
  | some r => if regRights r = .writeOnly then none else some r

/-- The effect of RD (40_host_access.md R83): it is answered by a halted unit too; a RD that breaks access rights
answers 0. -/
def rdEffect (addr : RegNumber) (s : State) : State :=
  match readableReg addr with
  | some r => s.answer (some (readRegister s r))
  | none => (takeFault .badAccess s).answer (some 0)

/-- WR (40_host_access.md R81). -/
def execWr (addr : RegNumber) (wdata : Word) (s : State) : Host.Outcome State Fault Refusal :=
  acceptWrite (wrEffect addr wdata) s

/-- RD (40_host_access.md R83). -/
def execRd (addr : RegNumber) (s : State) : Host.Outcome State Fault Refusal := .next (rdEffect addr s)

end Sys2Proof.Machine
end

