-- ==== Sys2Proof/Machine/Dispatch.lean ====
section
/-! DEFINITION. One arm for each constructor of `Instr`. -/

namespace Sys2Proof.Machine

def exec (i : Instr) (s : State) : Host.Outcome State Fault Refusal :=
  match i with
  | .wr addr wdata => Sys2Proof.Machine.execWr addr wdata s
  | .rd addr => Sys2Proof.Machine.execRd addr s
  | .fmtset => Sys2Proof.Machine.execFmtset s
  | .bufset => Sys2Proof.Machine.execBufset s
  | .pack ch => Sys2Proof.Machine.execPack ch s
  | .unpack ch => Sys2Proof.Machine.execUnpack ch s
  | .encode => Sys2Proof.Machine.execEncode s
  | .decode => Sys2Proof.Machine.execDecode s
  | .getpixel => Sys2Proof.Machine.execGetpixel s
  | .setpixel => Sys2Proof.Machine.execSetpixel s

end Sys2Proof.Machine
end

