-- ==== Sys2Proof/Machine/Step.lean ====
section
/-! DEFINITION. One step of the machine: the next event from outside (00_scope.md R5; 70_reset_and_hazards.md R160). -/

namespace Sys2Proof.Machine

/-- The next outside event is taken from the script and happens, whole. A transaction is decoded and executed; when no
event is left the unit waits (70_reset_and_hazards.md R160). DESIGN CHOICE, safe (log 2). -/
def step (s : State) : Host.Outcome State Fault Refusal :=
  match s.world.script with
  | [] => .next s
  | .transaction t :: rest => exec (decode t) (s.beginEvent rest)
  | .reset :: rest => .next (s.beginEvent rest).resetUnit
  | .environment act :: rest => .next ((s.beginEvent rest).environmentStep act)

/-- The state in which the host's next transaction is the one that the table's bits say (logs 2 and 4). -/
def State.withFetchWord (s : State) (nbits w : Nat) : State := s.pushTransaction (tableTransaction nbits w)

end Sys2Proof.Machine
end

