-- ==== Sys2Proof/Machine/Assembler.lean ====
section
/-! DEFINITION. The pseudo-instructions of 30_encoding.md R70 and the source's calls of 40_host_access.md R85, as lists
of transactions. No meaning uses this file. -/

namespace Sys2Proof.Machine

/-- `WR <reg>, <value>` (30_encoding.md R69). -/
def writeOf (r : Reg) (w : Word) : Instr := .wr (regNumber r) w

/-- `RD <reg>` (30_encoding.md R69). -/
def readOf (r : Reg) : Instr := .rd (regNumber r)

/-- `DESC[c]` (10_state.md R11). -/
def descReg : Channel → Reg
  | .red => .descRed
  | .green => .descGreen
  | .blue => .descBlue
  | .alpha => .descAlpha

/-- The descriptor word `len + 0x100 * off + 0x10000 * msbr` (30_encoding.md R70). -/
def descWord (len : BitVec 8) (off : BitVec 5) (msbr : Bool) : Word :=
  BitVec.ofNat 32 (len.toNat + 0x100 * off.toNat + 0x10000 * msbr.toNat)

/-- The expansion of a pseudo-instruction (30_encoding.md R70). -/
def expand : Pseudo → List Instr
  | .setdesc ch len off msbr => [writeOf (descReg ch) (descWord len off msbr)]
  | .setbpp bits => [writeOf .descBpp (bits.setWidth 32)]
  | .setgeom pitch xres yres => [writeOf .descPitch pitch, writeOf .descXres xres, writeOf .descYres yres]
  | .setxy x y => [writeOf .x x, writeOf .y y]
  | .setcolor r g b a => [writeOf .cr r, writeOf .cg g, writeOf .cb b, writeOf .ca a]
  | .getcolor => [readOf .cr, readOf .cg, readOf .cb, readOf .ca]

/-- Construct a PixelFormat from a descriptor (40_host_access.md R85). -/
def callFormat (d : Descriptor) : List Instr :=
  expand (.setdesc .red d.red.length d.red.offset d.red.msbr) ++
    expand (.setdesc .green d.green.length d.green.offset d.green.msbr) ++
    expand (.setdesc .blue d.blue.length d.blue.offset d.blue.msbr) ++
    expand (.setdesc .alpha d.alpha.length d.alpha.offset d.alpha.msbr) ++
    expand (.setbpp d.bpp) ++ [.fmtset, readOf .status]

/-- Construct a PixelBuffer (40_host_access.md R85). -/
def callBuffer (pitch xres yres : Word) : List Instr := expand (.setgeom pitch xres yres) ++ [.bufset]

/-- `pack(channel, v)` (40_host_access.md R85). -/
def callPack (ch : Channel) (v : Half) : List Instr := [writeOf .v16 (v.setWidth 32), .pack ch, readOf .pix]

/-- `unpack(channel, p)` (40_host_access.md R85). -/
def callUnpack (ch : Channel) (p : Word) : List Instr := [writeOf .pix p, .unpack ch, readOf .v16]

/-- `SETCOLOR` of a colour (30_encoding.md R70). -/
def setColorOf (c : Color) : List Instr :=
  expand (.setcolor (c.r.setWidth 32) (c.g.setWidth 32) (c.b.setWidth 32) (c.a.setWidth 32))

/-- `encode(c, format)` (40_host_access.md R85). -/
def callEncode (c : Color) : List Instr := setColorOf c ++ [.encode, readOf .pix]

/-- `decode(p, format)` (40_host_access.md R85). -/
def callDecode (p : Word) : List Instr := [writeOf .pix p, .decode] ++ expand .getcolor

/-- `getPixel(x, y)` (40_host_access.md R85). -/
def callGetPixel (x y : Word) : List Instr := expand (.setxy x y) ++ [.getpixel] ++ expand .getcolor

/-- `setPixel(x, y, c)` (40_host_access.md R85). -/
def callSetPixel (x y : Word) (c : Color) : List Instr := expand (.setxy x y) ++ setColorOf c ++ [.setpixel]

/-- `width` (40_host_access.md R84, R85). -/
def callWidth : List Instr := [readOf .bufWidth]

/-- `height` (40_host_access.md R84, R85). -/
def callHeight : List Instr := [readOf .bufHeight]

end Sys2Proof.Machine
end

