-- ==== Sys2Proof/Safety.lean ====
section
/-! DEFINITION. The terms that claims use: what a good end is, the invariant of the registers, the canonical region, and
the named premises of the spec, none of which the hardware checks. -/

namespace Sys2Proof.Machine

/-- A run that ends here has not gone wrong (60_exceptions.md R147). -/
def State.goodEnd (s : State) : Bool := !s.status.fault

/-! ### Invariants -/

/-- The seven clauses of 10_state.md R26, and that FAULTCODE is none of the values that never occur (R23). -/
structure State.RegistersOk (s : State) : Prop where
  /-- Clause 1. -/
  buffer_has_format : s.status.bufValid = true → s.status.fmtValid = true
  /-- Clause 2. -/
  format_legal : s.status.fmtValid = true →
    (∀ ch, (s.fmt.channel ch).length.toNat ≤ 16) ∧ 1 ≤ s.fmt.byteCount ∧ s.fmt.byteCount ≤ 4 ∧ s.status.fmtErr = 0
  /-- Clause 3. -/
  no_format : s.status.fmtValid = false → s.fmt = .zero ∧ s.status.zlw = false ∧ s.status.bufValid = false
  /-- Clause 4. -/
  no_buffer : s.status.bufValid = false → s.buf = .zero
  /-- Clause 5. -/
  fault_has_code : s.status.fault = false ↔ s.status.faultCode = 0
  /-- Clause 6. -/
  error_no_format : s.status.fmtErr ≠ 0 → s.status.fmtValid = false
  /-- Clause 7. -/
  warning_exact : s.status.zlw = true ↔
    s.status.fmtValid = true ∧ (s.fmt.red.length = 0 ∨ s.fmt.green.length = 0 ∨ s.fmt.blue.length = 0)
  /-- FAULTCODE 6 and 7 never occur (10_state.md R23). -/
  code_known : s.status.faultCode.toNat ≤ 5

/-- The region is in canonical form and lists no byte outside it (20_memory.md R40). -/
def World.Ok (w : World) : Prop := w.region.wf = true ∧ ∀ c ∈ w.region, w.admits c.1

/-! ### Named premises -/

/-- `GeometryWellFormed` (41_configuration.md R96). -/
def State.GeometryWellFormed (s : State) : Prop :=
  s.buf.width.toNat * s.fmt.byteCount ≤ s.buf.pitch.toNat ∧
    s.buf.pitch.toNat * s.buf.height.toNat ≤ s.world.regionSize.val

/-- `ChannelsFit(f)` (41_configuration.md R94). -/
def PixelFormat.ChannelsFit (f : PixelFormat) : Prop :=
  ∀ ch, 0 < (f.channel ch).length.toNat →
    (f.channel ch).offset.toNat + (f.channel ch).length.toNat ≤ f.byteCount * 8

/-- A bit position belongs to a channel (42_channel_codec.md R100). -/
def ChannelSpec.covers (c : ChannelSpec) (i : Nat) : Prop :=
  c.offset.toNat ≤ i ∧ i < c.offset.toNat + c.length.toNat

/-- `ChannelsDisjoint(f)` (41_configuration.md R94). -/
def PixelFormat.ChannelsDisjoint (f : PixelFormat) : Prop :=
  ∀ a b i, (f.channel a).covers i → (f.channel b).covers i → a = b

/-- Every channel of non-zero length lies in the 32-bit container, and no length is above 16: the premise of
43_pixel_codec.md R114 beside `ChannelsDisjoint`. -/
def PixelFormat.InContainer (f : PixelFormat) : Prop :=
  ∀ ch, (f.channel ch).length.toNat ≤ 16 ∧
    (0 < (f.channel ch).length.toNat → (f.channel ch).offset.toNat + (f.channel ch).length.toNat ≤ 32)

/-- The environment writes the byte at `off` before none of the next `k` byte accesses: `Serialized` for that byte
(20_memory.md R53). -/
def World.QuietAt (w : World) (k off : Nat) : Prop :=
  w.envMayWrite = true → ∀ slot ∈ w.schedule.take k, ∀ v, EnvAction.write off v ∉ slot.acts

/-- `Serialized` for the `n` bytes of a pixel at `a`, over the next `k` byte accesses. -/
def World.PixelQuiet (w : World) (k a n : Nat) : Prop := ∀ i < n, w.QuietAt k (a + i)

/-! ### What a claim reads -/

/-- The byte of the region at an offset. -/
def State.byte (s : State) (off : Nat) : Byte := s.world.region.read off

/-- A GETPIXEL or SETPIXEL in this state accesses the bytes of the pixel: the unit is not halted, a buffer exists, the
pixel is in bounds and the region holds it (44_pixel_access.md R127, R128). -/
def State.TouchesRegion (s : State) : Prop :=
  s.status.fault = false ∧ s.status.bufValid = true ∧ s.inBounds ∧ s.world.admitsPixel s.pixelOffset s.fmt.byteCount

/-- An offset is one of the bytes of the pixel that X and Y name (44_pixel_access.md R123). -/
def State.pixelHolds (s : State) (off : Nat) : Prop :=
  s.pixelOffset ≤ off ∧ off < s.pixelOffset + s.fmt.byteCount

/-- The accesses of the unit among those seen. -/
def unitAccesses (l : List Access) : List Access := l.filter fun a => a.agent == .unit

/-- What the environment saw, in order: the offsets it read and the values it got. -/
def seenByEnvironment (l : List Access) : List Host.Cell :=
  (l.filter fun a => a.agent == .environment && a.kind == .read).map fun a => (a.off, a.val)

/-- What a list of byte accesses makes of a memory: its writes, one after the other (20_memory.md R42). -/
def replay : List Access → Memory → Memory
  | [], m => m
  | a :: l, m => replay l (match a.kind with | .read => m | .write => m.write a.off a.val)

/-- The bits of a register that have storage (10_state.md R13, R14, R16, R17, R20, R22, R23, R25). CMD has none (R24). -/
def storedBits : Reg → Word
  | .descRed => 0x00011FFF
  | .descGreen => 0x00011FFF
  | .descBlue => 0x00011FFF
  | .descAlpha => 0x00011FFF
  | .descBpp => 0x000000FF
  | .descPitch => 0xFFFFFFFF
  | .descXres => 0xFFFFFFFF
  | .descYres => 0xFFFFFFFF
  | .fmtRed => 0x00001F1F
  | .fmtGreen => 0x00001F1F
  | .fmtBlue => 0x00001F1F
  | .fmtAlpha => 0x00001F1F
  | .fmtBypp => 0x00000007
  | .bufPitch => 0xFFFFFFFF
  | .bufWidth => 0xFFFFFFFF
  | .bufHeight => 0xFFFFFFFF
  | .x => 0xFFFFFFFF
  | .y => 0xFFFFFFFF
  | .cr => 0x0000FFFF
  | .cg => 0x0000FFFF
  | .cb => 0x0000FFFF
  | .ca => 0x0000FFFF
  | .pix => 0xFFFFFFFF
  | .v16 => 0x0000FFFF
  | .status => 0x0000073F
  | .cmd => 0

/-- The registers all have the values of 10_state.md R36. -/
def State.RegistersAtReset (s : State) : Prop :=
  s.desc = .zero ∧ s.fmt = .zero ∧ s.buf = .zero ∧ s.opr = .zero ∧ s.status = .zero

/-- The state with another schedule: another order of the byte accesses to come and another part of the environment. -/
def State.withSchedule (s : State) (slots : List Slot) : State := { s with world := { s.world with schedule := slots } }

/-- The state with other coordinates in X and Y. -/
def State.at (s : State) (x y : Word) : State := { s with opr := { s.opr with x := x, y := y } }

end Sys2Proof.Machine
end

