-- ==== Sys2Proof/Certificates/Slice0/Obligations.lean ====
section
/-! DEFINITION. The statements about FBCORE, for the provers. Each cites the rule of spec/ it formalises. -/

open Sys2Proof Sys2Proof.Machine

/-! ### Encoding -/

/-- 30_encoding.md R60, R62 to R66: decoding the encoding of a well-formed instruction gives it back. -/
def Obligations.DecodeEncode : Prop :=
  ∀ i : Instr, i.wellFormed = true → Sys2Proof.decode (Sys2Proof.encode i) = i

/-- 30_encoding.md R60, R62: no bit of a transaction is lost but the field that a RD ignores, which is emitted as 0. -/
def Obligations.EncodeDecode : Prop :=
  ∀ t : Transaction,
    (t.getLsbD 40 = true → Sys2Proof.encode (Sys2Proof.decode t) = t) ∧
    (t.getLsbD 40 = false → Sys2Proof.encode (Sys2Proof.decode t) = t &&& 0x0FF00000000)

/-- 30_encoding.md R62: every 41-bit word decodes, to an instruction that has an encoding of its own (log 3). -/
def Obligations.DecodedIsWellFormed : Prop :=
  ∀ t : Transaction, (Sys2Proof.decode t).wellFormed = true

/-- 30_encoding.md R64, R66: the 14 listed words are the commands, each the word of its command, and every other word is
ILLEGAL. -/
def Obligations.LegalCommandWords : Prop :=
  ∀ w : Word,
    (w ∈ commandWords → ∃ c, decodeCommand w = .ok c ∧ encodeCommand c = w) ∧
    (w ∉ commandWords → decodeCommand w = .error .illegalCommand)

/-- Words written out from 30_encoding.md R60 and R64 and from 95_test_vectors.md decode to what they stand for. -/
def Obligations.WordsDecode : Prop :=
  Sys2Proof.decode 0x10100000506 = .wr 0x01 0x00000506 ∧
  Sys2Proof.decode 0x01E00000000 = .rd 0x1E ∧
  Sys2Proof.decode 0x11F00000001 = .fmtset ∧
  Sys2Proof.decode 0x11F00000311 = .unpack .alpha ∧
  Sys2Proof.decode 0x11F00000020 = .encode ∧
  Sys2Proof.decode 0x11F00000031 = .setpixel

/-! ### Steps, reset and the outside -/

/-- 00_scope.md R3, R5; 40_host_access.md R80: a step whose next outside event is the transaction of a well-formed
instruction is that instruction's execution, in the state with the event taken from the script and no byte access seen
yet (the script is the model's choice, log 2). -/
def Obligations.StepRunsDecoded : Prop :=
  ∀ (s : State) (i : Instr) (rest : List Event), i.wellFormed = true →
    s.world.script = .transaction (Sys2Proof.encode i) :: rest →
    step s = exec i { s with world := { s.world with script := rest, traffic := [] } }

/-- 70_reset_and_hazards.md R160; 10_state.md R36: a reset leaves every register 0, whatever the state was, and does not
touch the region, its size or the environment. That it clears the response is the model's choice (log 10). -/
def Obligations.StepReset : Prop :=
  ∀ (s : State) (rest : List Event), s.world.script = .reset :: rest →
    ∃ t, step s = .next t ∧ t.RegistersAtReset ∧
      t.world = { s.world with script := rest, traffic := [], response := none }

/-- 20_memory.md R52, R53: an access of the environment between two transactions changes no register; it writes its one
byte when ENV_MAY_WRITE holds and the byte exists (log 7), and a read changes no byte. -/
def Obligations.StepEnvironment : Prop :=
  ∀ (s : State) (act : EnvAction) (rest : List Event), s.world.script = .environment act :: rest →
    s.world.region.wf = true →
    ∃ t, step s = .next t ∧ t.desc = s.desc ∧ t.fmt = s.fmt ∧ t.buf = s.buf ∧ t.opr = s.opr ∧ t.status = s.status ∧
      t.world.script = rest ∧ t.world.schedule = s.world.schedule ∧ t.world.regionSize = s.world.regionSize ∧
      t.world.envMayWrite = s.world.envMayWrite ∧ t.world.response = s.world.response ∧
      ∀ x, t.byte x =
        match act with
        | .read _ => s.byte x
        | .write off v =>
          if s.world.envMayWrite = true ∧ off < s.world.regionSize.val ∧ x = off then v else s.byte x

/-- 70_reset_and_hazards.md R160: with nothing to come the unit waits (that a step is then idle is the model's choice,
log 2). -/
def Obligations.StepWaits : Prop :=
  ∀ s : State, s.world.script = [] → step s = .next s

/-- 10_state.md R36: every register reads 0 after reset. -/
def Obligations.ResetReadsZero : Prop :=
  ∀ r : Reg, readRegister State.reset r = 0

/-- 70_reset_and_hazards.md R167: every transaction completes; no instruction, and no other event, stops the machine. That
a transaction which faults is a next state with STATUS updated is the model's reading (log 1), and that a step with nothing
to come is idle is its choice (log 2). -/
def Obligations.EveryStepCompletes : Prop :=
  (∀ (i : Instr) (s : State), ∃ t, exec i s = .next t) ∧ (∀ s : State, ∃ t, step s = .next t)

/-! ### Invariants -/

/-- 10_state.md R26: its clauses hold after reset. -/
def Obligations.RegistersOkAtReset : Prop := State.reset.RegistersOk

/-- 10_state.md R26: every step keeps its clauses, from every state that has them. -/
def Obligations.RegistersOkKept : Prop :=
  ∀ s t : State, s.RegistersOk → step s = .next t → t.RegistersOk

/-- The region of `State.reset`, whatever its contents and its size are, is in canonical form and lists no byte outside
REGION_SIZE (the model's own form of 20_memory.md R40; log 5). -/
def Obligations.RegionOkAtReset : Prop := State.reset.world.Ok

/-- 10_state.md R27: the contents of the region at the start are an argument of the model. Any contents of any size are
those of a region, which reads them at every offset below its size; and the region of `State.reset` is that of the open
contents and the open REGION_SIZE (the form in which the bytes are written is the model's own, log 5). -/
def Obligations.StartContentsAreOpen : Prop :=
  (∀ (contents : Nat → Byte) (size off : Nat), off < size → (Memory.ofContents contents size).read off = contents off) ∧
    State.reset.world.region = Memory.ofContents Config.regionByte Config.regionSize.val

/-- 20_memory.md R40, R58; 10_state.md R27: every step keeps the canonical form of the region, lists no byte outside it,
and keeps REGION_SIZE and ENV_MAY_WRITE. -/
def Obligations.RegionOkKept : Prop :=
  ∀ s t : State, s.world.Ok → step s = .next t →
    t.world.Ok ∧ t.world.regionSize = s.world.regionSize ∧ t.world.envMayWrite = s.world.envMayWrite

/-- The canonical form is canonical: two such memories that read the same everywhere are the same data (the model's own
form of 20_memory.md R40; log 5). -/
def Obligations.CanonicalRegionUnique : Prop :=
  ∀ m m' : Memory, m.wf = true → m'.wf = true → (∀ x, m.read x = m'.read x) → m = m'

/-- 20_memory.md R42, R46, R53, R58: the region changes only by the writes seen on it, each at an offset below
REGION_SIZE, and the environment's are there only when ENV_MAY_WRITE holds. That the environment's accesses lie below
REGION_SIZE too is the model's deduction (log 7), and the record of the accesses seen is the model's own (log 10). -/
def Obligations.RegionChangesAreSeen : Prop :=
  ∀ s t : State, s.world.script ≠ [] → step s = .next t →
    t.world.region = replay t.world.traffic s.world.region ∧
    ∀ a ∈ t.world.traffic, a.off < s.world.regionSize.val ∧
      (a.kind = .write → a.agent = .environment → s.world.envMayWrite = true)

/-! ### Faults -/

/-- 10_state.md R33, all of it: the first fault sets FAULT and FAULTCODE together; no transaction changes them again,
only reset clears them; a halted unit ignores every WR and command, and answers every RD. -/
def Obligations.FaultSticks : Prop :=
  (∀ (i : Instr) (s t : State), s.status.fault = false → s.status.faultCode = 0 → exec i s = .next t →
    (t.status.fault = true ↔ t.status.faultCode ≠ 0)) ∧
  (∀ (i : Instr) (s t : State), s.status.fault = true → exec i s = .next t →
    t.status.fault = true ∧ t.status.faultCode = s.status.faultCode) ∧
  (∀ s t : State, s.status.fault = true → step s = .next t → t.status.fault = false →
    t.status.faultCode = 0 ∧ ∃ rest, s.world.script = .reset :: rest) ∧
  (∀ (i : Instr) (s : State), s.status.fault = true → (∀ a, i ≠ .rd a) →
    exec i s = .next { s with world := { s.world with response := none } }) ∧
  (∀ (a : RegNumber) (s : State), s.status.fault = true →
    exec (.rd a) s = .next { s with world := { s.world with
      response := some (match regOfNumber a with | some r => readRegister s r | none => 0) } })

/-- 60_exceptions.md R145: faults are precise. The faulting transaction changes no register but STATUS.FAULT and
STATUS.FAULTCODE, uses no slot of the schedule and accesses no byte of the region. -/
def Obligations.FaultsArePrecise : Prop :=
  ∀ (i : Instr) (s t : State), s.status.fault = false → exec i s = .next t → t.status.fault = true →
    t.desc = s.desc ∧ t.fmt = s.fmt ∧ t.buf = s.buf ∧ t.opr = s.opr ∧
    t.status = { s.status with fault := true, faultCode := t.status.faultCode } ∧
    1 ≤ t.status.faultCode.toNat ∧ t.status.faultCode.toNat ≤ 5 ∧
    t.world = { s.world with response := t.world.response }

/-- 60_exceptions.md R146, code 3: BUFSET, PACK, UNPACK, ENCODE and DECODE fault NoFormat when no PixelFormat is
constructed, and change nothing else. -/
def Obligations.NeedsFormat : Prop :=
  ∀ (i : Instr) (s : State),
    (i = .bufset ∨ (∃ ch, i = .pack ch) ∨ (∃ ch, i = .unpack ch) ∨ i = .encode ∨ i = .decode) →
    s.status.fault = false → s.status.fmtValid = false →
    exec i s = .next { s with
      status := { s.status with fault := true, faultCode := 3 }
      world := { s.world with response := none } }

/-- 60_exceptions.md R146, code 4: GETPIXEL and SETPIXEL fault NoBuffer when no PixelBuffer is constructed, and change
nothing else. -/
def Obligations.NeedsBuffer : Prop :=
  ∀ (i : Instr) (s : State), (i = .getpixel ∨ i = .setpixel) →
    s.status.fault = false → s.status.bufValid = false →
    exec i s = .next { s with
      status := { s.status with fault := true, faultCode := 4 }
      world := { s.world with response := none } }

/-- 60_exceptions.md R146, code 5; 20_memory.md R58: an in-bounds pixel that is not wholly in the region faults
RegionFault before any byte is accessed. -/
def Obligations.PixelOutsideRegionFaults : Prop :=
  ∀ (i : Instr) (s : State), (i = .getpixel ∨ i = .setpixel) →
    s.status.fault = false → s.status.bufValid = true → s.inBounds →
    s.world.regionSize.val < s.pixelOffset + s.fmt.byteCount →
    exec i s = .next { s with
      status := { s.status with fault := true, faultCode := 5 }
      world := { s.world with response := none } }

/-- 60_exceptions.md R142, all of it: once a PixelFormat is constructed the codec raises nothing; once a PixelBuffer is,
and the geometry is well formed, nor do the pixel commands; coordinates out of bounds are never an error; and a rejected
format prevents buffer construction. -/
def Obligations.NoFurtherErrors : Prop :=
  ∀ s : State, s.status.fault = false →
    (s.status.fmtValid = true → ∀ i : Instr,
      ((∃ ch, i = .pack ch) ∨ (∃ ch, i = .unpack ch) ∨ i = .encode ∨ i = .decode) →
      ∃ t, exec i s = .next t ∧ t.status = s.status) ∧
    (s.status.bufValid = true → (s.GeometryWellFormed ∨ ¬ s.inBounds) → ∀ i : Instr,
      (i = .getpixel ∨ i = .setpixel) → ∃ t, exec i s = .next t ∧ t.status = s.status) ∧
    (∀ t, exec .fmtset s = .next t → t.status.fmtErr ≠ 0 → t.status.bufValid = false ∧
      ∃ u, exec .bufset t = .next u ∧ u.status.bufValid = false ∧ u.buf = t.buf)

/-! ### WR and RD -/

/-- 40_host_access.md R81; 10_state.md R25: a WR of a read-write register stores the bits that have storage; every other
register and the region are as before. -/
def Obligations.WrStores : Prop :=
  ∀ (s : State) (addr : RegNumber) (w : Word), s.status.fault = false →
    (addr.toNat ≤ 0x07 ∨ (0x10 ≤ addr.toNat ∧ addr.toNat ≤ 0x17)) →
    ∃ r t, regNumber r = addr ∧ exec (.wr addr w) s = .next t ∧
      readRegister t r = w &&& storedBits r ∧
      (∀ r', r' ≠ r → readRegister t r' = readRegister s r') ∧
      t.world = { s.world with response := none }

/-- 40_host_access.md R81; 60_exceptions.md R146, code 2: a WR of a read-only register (0x08 to 0x0F, 0x1E) or of an
unmapped number faults BadAccess. -/
def Obligations.WrBadAccess : Prop :=
  ∀ (s : State) (addr : RegNumber) (w : Word), s.status.fault = false →
    ((0x08 ≤ addr.toNat ∧ addr.toNat ≤ 0x0F) ∨ (0x18 ≤ addr.toNat ∧ addr.toNat ≤ 0x1E) ∨ 0x20 ≤ addr.toNat) →
    exec (.wr addr w) s = .next { s with
      status := { s.status with fault := true, faultCode := 2 }
      world := { s.world with response := none } }

/-- 40_host_access.md R81, R82: a WR to CMD executes the command its data spells, and is that command. -/
def Obligations.WrToCmdIsTheCommand : Prop :=
  ∀ (s : State) (w : Word) (c : Command), decodeCommand w = .ok c →
    exec (.wr 0x1F w) s = exec (instrOfCommand c) s

/-- 30_encoding.md R66; 60_exceptions.md R146, code 1: a WR to CMD with none of the 14 words faults IllegalCommand and
changes no other state. -/
def Obligations.WrIllegalCommand : Prop :=
  ∀ (s : State) (w : Word), s.status.fault = false → w ∉ commandWords →
    exec (.wr 0x1F w) s = .next { s with
      status := { s.status with fault := true, faultCode := 1 }
      world := { s.world with response := none } }

/-- 40_host_access.md R83: a RD of a mapped register but CMD answers its value, halted or not, and changes nothing. -/
def Obligations.RdAnswers : Prop :=
  ∀ (s : State) (addr : RegNumber), (addr.toNat ≤ 0x17 ∨ addr.toNat = 0x1E) →
    ∃ r, regNumber r = addr ∧
      exec (.rd addr) s = .next { s with world := { s.world with response := some (readRegister s r) } }

/-- 40_host_access.md R83; 60_exceptions.md R146, code 2: a RD of CMD or of an unmapped number answers 0, and faults
BadAccess on a unit that is not halted. -/
def Obligations.RdBadAccess : Prop :=
  ∀ (s : State) (addr : RegNumber),
    ((0x18 ≤ addr.toNat ∧ addr.toNat ≤ 0x1D) ∨ 0x1F ≤ addr.toNat) →
    exec (.rd addr) s = .next { s with
      status := if s.status.fault then s.status else { s.status with fault := true, faultCode := 2 }
      world := { s.world with response := some 0 } }

/-- 10_state.md R11, R13 to R22, R25: every numbered register but STATUS and CMD reads the piece of state that the commands
use under its name; the fields of the channel registers stand where the tables put them; and the reserved bits of every
register read as 0. (STATUS is `Obligations.StatusFields`; CMD has no storage.) -/
def Obligations.RegisterFields : Prop :=
  ∀ s : State,
    (∀ ch, ∃ r f, regNumber r = BitVec.ofNat 8 (selectOfChannel ch).toNat ∧
      regNumber f = BitVec.ofNat 8 (8 + (selectOfChannel ch).toNat) ∧
      (readRegister s r).extractLsb' 0 8 = (s.desc.channel ch).length ∧
      (readRegister s r).extractLsb' 8 5 = (s.desc.channel ch).offset ∧
      (readRegister s r).getLsbD 16 = (s.desc.channel ch).msbr ∧
      (readRegister s f).extractLsb' 0 5 = (s.fmt.channel ch).length ∧
      (readRegister s f).extractLsb' 8 5 = (s.fmt.channel ch).offset) ∧
    (selectOfChannel .red = 0 ∧ selectOfChannel .green = 1 ∧ selectOfChannel .blue = 2 ∧ selectOfChannel .alpha = 3) ∧
    (regNumber .descBpp = 0x04 ∧ readRegister s .descBpp = s.desc.bpp.setWidth 32) ∧
    (regNumber .descPitch = 0x05 ∧ readRegister s .descPitch = s.desc.pitch) ∧
    (regNumber .descXres = 0x06 ∧ readRegister s .descXres = s.desc.xres) ∧
    (regNumber .descYres = 0x07 ∧ readRegister s .descYres = s.desc.yres) ∧
    (regNumber .fmtBypp = 0x0C ∧ readRegister s .fmtBypp = s.fmt.bytesPerPixel.setWidth 32) ∧
    (regNumber .bufPitch = 0x0D ∧ readRegister s .bufPitch = s.buf.pitch) ∧
    (regNumber .bufWidth = 0x0E ∧ readRegister s .bufWidth = s.buf.width) ∧
    (regNumber .bufHeight = 0x0F ∧ readRegister s .bufHeight = s.buf.height) ∧
    (regNumber .x = 0x10 ∧ readRegister s .x = s.opr.x) ∧
    (regNumber .y = 0x11 ∧ readRegister s .y = s.opr.y) ∧
    (regNumber .cr = 0x12 ∧ readRegister s .cr = s.opr.color.r.setWidth 32) ∧
    (regNumber .cg = 0x13 ∧ readRegister s .cg = s.opr.color.g.setWidth 32) ∧
    (regNumber .cb = 0x14 ∧ readRegister s .cb = s.opr.color.b.setWidth 32) ∧
    (regNumber .ca = 0x15 ∧ readRegister s .ca = s.opr.color.a.setWidth 32) ∧
    (regNumber .pix = 0x16 ∧ readRegister s .pix = s.opr.pix) ∧
    (regNumber .v16 = 0x17 ∧ readRegister s .v16 = s.opr.v16.setWidth 32) ∧
    (∀ r, readRegister s r &&& ~~~ storedBits r = 0)

/-- 10_state.md R23: the fields of STATUS stand where the table puts them. -/
def Obligations.StatusFields : Prop :=
  ∀ s : State,
    (readRegister s .status).getLsbD 0 = s.status.fmtValid ∧
    (readRegister s .status).getLsbD 1 = s.status.bufValid ∧
    (readRegister s .status).getLsbD 2 = s.status.fault ∧
    (readRegister s .status).getLsbD 3 = s.status.zlw ∧
    (readRegister s .status).extractLsb' 4 2 = s.status.fmtErr ∧
    (readRegister s .status).extractLsb' 8 3 = s.status.faultCode ∧
    (readRegister s .status).extractLsb' 6 2 = 0 ∧
    (readRegister s .status).extractLsb' 11 21 = 0

/-! ### FMTSET and BUFSET -/

/-- 41_configuration.md R91, R92, R93: a descriptor that passes the three conditions is latched, the old buffer is
discarded, and ZLW says whether red, green or blue has length 0; nothing else changes. -/
def Obligations.FmtsetAccepts : Prop :=
  ∀ s : State, s.status.fault = false →
    (∀ ch, (s.desc.channel ch).length.toNat ≤ 16 ∧ (s.desc.channel ch).msbr = false) →
    (s.desc.bpp.toNat = 8 ∨ s.desc.bpp.toNat = 16 ∨ s.desc.bpp.toNat = 24 ∨ s.desc.bpp.toNat = 32) →
    ∃ t, exec .fmtset s = .next t ∧
      (∀ ch, (t.fmt.channel ch).length.toNat = (s.desc.channel ch).length.toNat ∧
        (t.fmt.channel ch).offset = (s.desc.channel ch).offset) ∧
      t.fmt.byteCount * 8 = s.desc.bpp.toNat ∧
      t.buf = .zero ∧
      t.status = { fmtValid := true, bufValid := false, fault := false
                   zlw := decide (s.desc.red.length = 0 ∨ s.desc.green.length = 0 ∨ s.desc.blue.length = 0)
                   fmtErr := 0, faultCode := s.status.faultCode } ∧
      t.desc = s.desc ∧ t.opr = s.opr ∧ t.world = { s.world with response := none }

/-- 41_configuration.md R91, R92; 60_exceptions.md R141, R148 item 5: a descriptor that breaks a condition leaves no
format and no buffer, and FMT_ERR names the first condition broken, in the order of the rule; nothing else changes. -/
def Obligations.FmtsetRejects : Prop :=
  ∀ (s : State) (code : BitVec 2), s.status.fault = false →
    (((∃ ch, (s.desc.channel ch).length.toNat > 16) ∧ code = 1) ∨
     ((∀ ch, (s.desc.channel ch).length.toNat ≤ 16) ∧ (∃ ch, (s.desc.channel ch).msbr = true) ∧ code = 2) ∨
     ((∀ ch, (s.desc.channel ch).length.toNat ≤ 16 ∧ (s.desc.channel ch).msbr = false) ∧
       (s.desc.bpp.toNat = 0 ∨ s.desc.bpp.toNat % 8 ≠ 0 ∨ s.desc.bpp.toNat > 32) ∧ code = 3)) →
    exec .fmtset s = .next { s with
      fmt := .zero
      buf := .zero
      status := { s.status with fmtValid := false, bufValid := false, zlw := false, fmtErr := code }
      world := { s.world with response := none } }

/-- 41_configuration.md R95: BUFSET latches the geometry of the descriptor and sets BUF_VALID; nothing else changes. -/
def Obligations.BufsetLatches : Prop :=
  ∀ s : State, s.status.fault = false → s.status.fmtValid = true →
    exec .bufset s = .next { s with
      buf := { pitch := s.desc.pitch, width := s.desc.xres, height := s.desc.yres }
      status := { s.status with bufValid := true }
      world := { s.world with response := none } }

/-- 10_state.md R13, R15, R18, R29 to R32, R34, R35; 40_host_access.md R87; 41_configuration.md R92: FMTSET alone changes
the latched format, FMT_VALID, ZLW and FMT_ERR, FMTSET and BUFSET alone the latched buffer and BUF_VALID, and only WR the
descriptor. -/
def Obligations.LatchedConfiguration : Prop :=
  ∀ (i : Instr) (s t : State), i.wellFormed = true → exec i s = .next t →
    (i ≠ .fmtset → t.fmt = s.fmt ∧ t.status.fmtValid = s.status.fmtValid ∧ t.status.zlw = s.status.zlw ∧
      t.status.fmtErr = s.status.fmtErr) ∧
    (i ≠ .fmtset → i ≠ .bufset → t.buf = s.buf ∧ t.status.bufValid = s.status.bufValid) ∧
    ((∀ a w, i ≠ .wr a w) → t.desc = s.desc)

/-! ### The channel codec -/

/-- 42_channel_codec.md R101, R103, bit by bit: bit `i` of `pack` is the bit of the value that the channel puts there,
the top `len` bits of the value standing at `off`; bits past bit 31 are lost. -/
def Obligations.PackBits : Prop :=
  ∀ (c : ChannelSpec) (v : Half) (i : Nat), c.length.toNat ≤ 16 → i < 32 →
    (pack c v).getLsbD i =
      (decide (c.offset.toNat ≤ i ∧ i < c.offset.toNat + c.length.toNat) &&
        v.getLsbD (16 - c.length.toNat + (i - c.offset.toNat)))

/-- 42_channel_codec.md R102, R103, bit by bit: a channel of length 0 gives 0xFFFF; any other puts its bits at the top of
the value, zeros below, and bits above bit 31 of the packed value read as 0. -/
def Obligations.UnpackBits : Prop :=
  ∀ (c : ChannelSpec) (p : Word),
    (c.length = 0 → unpack c p = 0xFFFF) ∧
    (1 ≤ c.length.toNat → c.length.toNat ≤ 16 → ∀ i < 16,
      (unpack c p).getLsbD i =
        (decide (16 - c.length.toNat ≤ i) && p.getLsbD (c.offset.toNat + (i - (16 - c.length.toNat)))))

/-- 42_channel_codec.md R106, its seven laws. -/
def Obligations.ChannelLaws : Prop :=
  ∀ c : ChannelSpec, c.length.toNat ≤ 16 →
    (1 ≤ c.length.toNat → c.offset.toNat + c.length.toNat ≤ 32 → ∀ v,
      unpack c (pack c v) = v &&& (0xFFFF - mask 16 (16 - c.length.toNat))) ∧
    (1 ≤ c.length.toNat → 32 < c.offset.toNat + c.length.toNat →
      (1 ≤ 32 - c.offset.toNat ∧ 32 - c.offset.toNat < c.length.toNat) ∧ ∀ v,
      unpack c (pack c v) =
        ((v >>> (16 - c.length.toNat)) &&& mask 16 (32 - c.offset.toNat)) <<< (16 - c.length.toNat)) ∧
    (c.length = 0 → ∀ v p, pack c v = 0 ∧ unpack c p = 0xFFFF ∧ unpack c (pack c v) = 0xFFFF ∧
      pack c (unpack c p) = 0) ∧
    (1 ≤ c.length.toNat → ∀ p,
      pack c (unpack c p) = p &&& BitVec.ofNat 32 ((2 ^ c.length.toNat - 1) * 2 ^ c.offset.toNat)) ∧
    (∀ v, pack c (unpack c (pack c v)) = pack c v) ∧
    (c.length.toNat = 16 → c.offset.toNat ≤ 16 → ∀ v, unpack c (pack c v) = v) ∧
    (c.offset.toNat + c.length.toNat ≤ 32 → ∀ v₁ v₂ : Half, v₁.toNat ≤ v₂.toNat →
      (pack c v₁).toNat ≤ (pack c v₂).toNat)

/-- 42_channel_codec.md R104: PACK replaces all of PIX by the packed value of V16 and changes nothing else. -/
def Obligations.PackResult : Prop :=
  ∀ (s : State) (ch : Channel), s.status.fault = false → s.status.fmtValid = true →
    exec (.pack ch) s = .next { s with
      opr := { s.opr with pix := pack (s.fmt.channel ch) s.opr.v16 }
      world := { s.world with response := none } }

/-- 42_channel_codec.md R105: UNPACK replaces V16 by the unpacked value of PIX and changes nothing else. -/
def Obligations.UnpackResult : Prop :=
  ∀ (s : State) (ch : Channel), s.status.fault = false → s.status.fmtValid = true →
    exec (.unpack ch) s = .next { s with
      opr := { s.opr with v16 := unpack (s.fmt.channel ch) s.opr.pix }
      world := { s.world with response := none } }

/-! ### The pixel codec -/

/-- 43_pixel_codec.md R110, R112: ENCODE replaces all of PIX by the OR of the four packed channels of CR, CG, CB, CA and
changes nothing else. -/
def Obligations.EncodeResult : Prop :=
  ∀ s : State, s.status.fault = false → s.status.fmtValid = true →
    exec .encode s = .next { s with
      opr := { s.opr with
        pix := pack s.fmt.red s.opr.color.r ||| pack s.fmt.green s.opr.color.g ||| pack s.fmt.blue s.opr.color.b |||
          pack s.fmt.alpha s.opr.color.a }
      world := { s.world with response := none } }

/-- 43_pixel_codec.md R111, R113: DECODE replaces CR, CG, CB, CA by the four unpacked channels of PIX and changes nothing
else. -/
def Obligations.DecodeResult : Prop :=
  ∀ s : State, s.status.fault = false → s.status.fmtValid = true →
    exec .decode s = .next { s with
      opr := { s.opr with
        color := { r := unpack s.fmt.red s.opr.pix, g := unpack s.fmt.green s.opr.pix
                   b := unpack s.fmt.blue s.opr.pix, a := unpack s.fmt.alpha s.opr.pix } }
      world := { s.world with response := none } }

/-- 43_pixel_codec.md R114: with disjoint channels that lie in the container, a component of `decode(encode(c))` is the
component with its low `16 - len` bits cleared, and 0xFFFF for a channel of length 0. -/
def Obligations.DecodeOfEncode : Prop :=
  ∀ (f : PixelFormat) (c : Color), f.ChannelsDisjoint → f.InContainer → ∀ ch,
    (decodePacked (encodeColor c f) f).component ch =
      if (f.channel ch).length = 0 then 0xFFFF
      else c.component ch &&& (0xFFFF - mask 16 (16 - (f.channel ch).length.toNat))

/-- 43_pixel_codec.md R115, all of it: `encode(decode(p, f), f) = p & M(f)`, which is `p` exactly when `p` has no bit
outside the channels; so for every 16-bit `p` under RGB565, and not for 0xFF000000 under the 32-bit format of R119. -/
def Obligations.EncodeOfDecode : Prop :=
  (∀ f : PixelFormat, (∀ ch, (f.channel ch).length.toNat ≤ 16) → ∀ p,
    encodeColor (decodePacked p f) f = p &&& coverageMask f ∧
    (encodeColor (decodePacked p f) f = p ↔ p &&& coverageMask f = p)) ∧
  (∀ (f : PixelFormat) (p : Word), f.red = ⟨5, 11⟩ → f.green = ⟨6, 5⟩ → f.blue = ⟨5, 0⟩ → f.alpha = ⟨0, 0⟩ →
    p.toNat < 2 ^ 16 → encodeColor (decodePacked p f) f = p) ∧
  (∀ f : PixelFormat, f.red = ⟨8, 16⟩ → f.green = ⟨8, 8⟩ → f.blue = ⟨8, 0⟩ → f.alpha = ⟨0, 0⟩ →
    decodePacked 0xFF000000 f = { r := 0, g := 0, b := 0, a := 0xFFFF } ∧
    encodeColor (decodePacked 0xFF000000 f) f = 0)

/-! ### Pixel access -/

/-- 44_pixel_access.md R126, all of it: byte `i` of a packed pixel is its bits `8 * i + 7` down to `8 * i`; the bits
from `8 * n` up are dropped; and the two round trips. -/
def Obligations.BytesOfPixel : Prop :=
  (∀ (p : Word) (i : Nat), disassemble p i = p.extractLsb' (8 * i) 8) ∧
  (∀ (p : Word) (n : Nat), n ≤ 4 → assemble (disassemble p) n = p &&& mask 32 (8 * n)) ∧
  (∀ (b : Nat → Byte) (n : Nat), n ≤ 4 → ∀ i < n, disassemble (assemble b n) i = b i)

/-- 44_pixel_access.md R120 to R122: the offset of an in-bounds pixel is `y * pitch + x * bytesPerPixel` on exact
integers, within the bound the rule gives, and the pixel's last byte is below 2^64. -/
def Obligations.AddressIsExact : Prop :=
  ∀ s : State, s.inBounds → s.fmt.byteCount ≤ 4 →
    (s.pixelOffset : Int) = s.opr.y.toInt * s.buf.pitch.toNat + s.opr.x.toInt * s.fmt.byteCount ∧
    s.pixelOffset ≤ (2 ^ 31 - 1) * (2 ^ 32 - 1) + 4 * (2 ^ 31 - 1) ∧
    s.pixelOffset + s.fmt.byteCount ≤ 2 ^ 64

/-- 44_pixel_access.md R124: under `GeometryWellFormed` every in-bounds pixel lies in the region, two different ones
share no byte, and the padding of a row and the bytes from `height * pitch` up belong to none. -/
def Obligations.GeometryLaws : Prop :=
  ∀ s : State, s.GeometryWellFormed → ∀ xs ys : Int, InBounds s.buf xs ys →
    pixelAddr s.buf s.fmt xs ys + s.fmt.byteCount ≤ s.world.regionSize.val ∧
    (∀ xs' ys' : Int, InBounds s.buf xs' ys' → (xs ≠ xs' ∨ ys ≠ ys') → ∀ i < s.fmt.byteCount, ∀ j < s.fmt.byteCount,
      pixelAddr s.buf s.fmt xs ys + i ≠ pixelAddr s.buf s.fmt xs' ys' + j) ∧
    (∀ row pad i : Nat, i < s.fmt.byteCount → s.buf.width.toNat * s.fmt.byteCount ≤ pad → pad < s.buf.pitch.toNat →
      pixelAddr s.buf s.fmt xs ys + i ≠ row * s.buf.pitch.toNat + pad) ∧
    (∀ i < s.fmt.byteCount, pixelAddr s.buf s.fmt xs ys + i < s.buf.height.toNat * s.buf.pitch.toNat)

/-- 44_pixel_access.md R127, R129 law 1: out of bounds, GETPIXEL gives the colour decoded from 0 and reads no byte;
nothing else changes. -/
def Obligations.GetpixelOutside : Prop :=
  ∀ s : State, s.status.fault = false → s.status.bufValid = true → ¬ s.inBounds →
    exec .getpixel s = .next { s with
      opr := { s.opr with color := decodePacked 0 s.fmt }
      world := { s.world with response := none } }

/-- 44_pixel_access.md R125, R127; 20_memory.md R43: in bounds, GETPIXEL gives the colour decoded from the pixel's bytes,
little-endian, when the environment leaves those bytes alone meanwhile, in whatever order they are read; no other
register changes, and no byte that the environment leaves alone. The schedule, of which each byte access uses one slot, is
the model's choice (log 8). -/
def Obligations.GetpixelInside : Prop :=
  ∀ s : State, s.TouchesRegion → s.world.region.wf = true →
    s.world.PixelQuiet s.fmt.byteCount s.pixelOffset s.fmt.byteCount →
    ∃ t, exec .getpixel s = .next t ∧
      t.opr = { s.opr with
        color := decodePacked (assemble (fun i => s.byte (s.pixelOffset + i)) s.fmt.byteCount) s.fmt } ∧
      t.desc = s.desc ∧ t.fmt = s.fmt ∧ t.buf = s.buf ∧ t.status = s.status ∧
      t.world.regionSize = s.world.regionSize ∧ t.world.envMayWrite = s.world.envMayWrite ∧
      t.world.script = s.world.script ∧ t.world.schedule = s.world.schedule.drop s.fmt.byteCount ∧
      t.world.response = none ∧
      ∀ x, s.world.QuietAt s.fmt.byteCount x → t.byte x = s.byte x

/-- 44_pixel_access.md R128, R129 law 2: out of bounds, SETPIXEL changes nothing. -/
def Obligations.SetpixelOutside : Prop :=
  ∀ s : State, s.status.fault = false → s.status.bufValid = true → ¬ s.inBounds →
    exec .setpixel s = .next { s with world := { s.world with response := none } }

/-- 44_pixel_access.md R126, R128; 20_memory.md R42, R46: in bounds, SETPIXEL changes no register, stores the low bytes
of the encoded colour at the pixel's offset, in whatever order, and changes no byte outside the pixel; said of every byte
that the environment leaves alone meanwhile. The schedule, of which each byte access uses one slot, is the model's choice
(log 8). -/
def Obligations.SetpixelInside : Prop :=
  ∀ s : State, s.TouchesRegion → s.world.region.wf = true →
    ∃ t, exec .setpixel s = .next t ∧
      t.opr = s.opr ∧ t.desc = s.desc ∧ t.fmt = s.fmt ∧ t.buf = s.buf ∧ t.status = s.status ∧
      t.world.regionSize = s.world.regionSize ∧ t.world.envMayWrite = s.world.envMayWrite ∧
      t.world.script = s.world.script ∧ t.world.schedule = s.world.schedule.drop s.fmt.byteCount ∧
      t.world.response = none ∧
      (∀ i < s.fmt.byteCount, s.world.QuietAt s.fmt.byteCount (s.pixelOffset + i) →
        t.byte (s.pixelOffset + i) = disassemble (encodeColor s.opr.color s.fmt) i) ∧
      (∀ x, ¬ s.pixelHolds x → s.world.QuietAt s.fmt.byteCount x → t.byte x = s.byte x)

/-- 20_memory.md R46, R58; 44_pixel_access.md R126 to R128: a GETPIXEL that touches the region makes exactly one read of
each byte of the pixel, a SETPIXEL exactly one write of each, of the byte that the encoded colour has there; nothing else
touches the region or the schedule: no other instruction, no pixel out of bounds and none that the region does not hold.
The schedule and the record of the accesses seen are the model's choices (logs 8 and 10). -/
def Obligations.AccessesOfPixel : Prop :=
  ∀ (i : Instr) (s t : State), i.wellFormed = true → exec i s = .next t →
    ∃ l, t.world.traffic = s.world.traffic ++ l ∧
      (i = .getpixel → s.TouchesRegion →
        ((unitAccesses l).map fun a => (a.kind, a.off)).Perm
          ((pixelOffsets s.pixelOffset s.fmt.byteCount).map fun o => (.read, o))) ∧
      (i = .setpixel → s.TouchesRegion →
        ((unitAccesses l).map fun a => (a.kind, a.off, a.val)).Perm
          ((List.range s.fmt.byteCount).map fun k =>
            (.write, s.pixelOffset + k, disassemble (encodeColor s.opr.color s.fmt) k))) ∧
      ((i ≠ .getpixel ∧ i ≠ .setpixel ∨ ¬ s.TouchesRegion) →
        l = [] ∧ t.world = { s.world with response := t.world.response })

/-- 20_memory.md R48: every order of the byte accesses of a pixel is admitted. -/
def Obligations.EveryByteOrder : Prop :=
  ∀ (s : State) (order : List Nat), s.TouchesRegion →
    order.Perm (pixelOffsets s.pixelOffset s.fmt.byteCount) →
    ∃ slots, ∀ i : Instr, (i = .getpixel ∨ i = .setpixel) →
      ∃ t l, exec i (s.withSchedule slots) = .next t ∧ t.world.traffic = s.world.traffic ++ l ∧
        (unitAccesses l).map Access.off = order

/-- 20_memory.md R47: a partly written pixel can be seen. Whichever bytes of the pixel, but not all, are to be new, the
environment can read all bytes of the pixel during a SETPIXEL and see those new and the rest old. -/
def Obligations.PartialPixelSeen : Prop :=
  ∀ (s : State) (new : Nat → Bool), s.TouchesRegion → s.world.region.wf = true →
    (∃ i < s.fmt.byteCount, new i = false) →
    ∃ slots t l, exec .setpixel (s.withSchedule slots) = .next t ∧ t.world.traffic = s.world.traffic ++ l ∧
      seenByEnvironment l = (List.range s.fmt.byteCount).map fun i =>
        (s.pixelOffset + i,
          if new i then disassemble (encodeColor s.opr.color s.fmt) i else s.byte (s.pixelOffset + i))

/-- 20_memory.md R41, R47, R48, R53: when ENV_MAY_WRITE holds, the environment's writes during a GETPIXEL are seen.
First, a GETPIXEL can return any bytes at all. Second, the read can be torn: in whatever order the bytes are read, and for
every `k` above 0 and below the number of bytes, the environment can write all bytes of the pixel after the first `k` byte
reads and before the others; the accesses seen are then those `k` reads, the environment's writes and the other reads, and
the colour is that of the `k` old bytes mixed with the new ones. That an interleaving is chosen by a schedule, and that
accesses are recorded, is the model's choice (logs 8 and 10). -/
def Obligations.TornReadPossible : Prop :=
  ∀ (s : State) (new : Nat → Byte), s.TouchesRegion → s.world.region.wf = true → s.world.envMayWrite = true →
    (∃ slots t, exec .getpixel (s.withSchedule slots) = .next t ∧
      t.opr.color = decodePacked (assemble (fun i => new (s.pixelOffset + i)) s.fmt.byteCount) s.fmt) ∧
    ∀ (order : List Nat) (k : Nat), order.Perm (pixelOffsets s.pixelOffset s.fmt.byteCount) →
      0 < k → k < s.fmt.byteCount →
      ∃ slots t, exec .getpixel (s.withSchedule slots) = .next t ∧
        t.world.traffic = s.world.traffic ++
          ((order.take k).map (fun o => { agent := .unit, kind := .read, off := o, val := s.byte o }) ++
            (pixelOffsets s.pixelOffset s.fmt.byteCount).map
              (fun o => { agent := .environment, kind := .write, off := o, val := new o }) ++
            (order.drop k).map (fun o => { agent := .unit, kind := .read, off := o, val := new o })) ∧
        t.opr.color = decodePacked
          (assemble (fun i => if s.pixelOffset + i ∈ order.take k then s.byte (s.pixelOffset + i)
            else new (s.pixelOffset + i)) s.fmt.byteCount) s.fmt

/-- 43_pixel_codec.md R116; 44_pixel_access.md R129 law 3; 20_memory.md R55: a GETPIXEL of the pixel a SETPIXEL just
wrote, the environment leaving it alone, returns `decode(encode(c) & mask(8 * n))`; under `ChannelsFit` that is
`decode(encode(c))`; and writing the colour read back gives the same colour again. -/
def Obligations.WriteThenRead : Prop :=
  ∀ s : State, s.RegistersOk → s.TouchesRegion → s.world.region.wf = true →
    s.world.PixelQuiet (2 * s.fmt.byteCount) s.pixelOffset s.fmt.byteCount →
    ∃ t u, exec .setpixel s = .next t ∧ exec .getpixel t = .next u ∧ u.status = s.status ∧
      u.opr.color = decodePacked (encodeColor s.opr.color s.fmt &&& mask 32 (8 * s.fmt.byteCount)) s.fmt ∧
      (s.fmt.ChannelsFit → u.opr.color = decodePacked (encodeColor s.opr.color s.fmt) s.fmt) ∧
      decodePacked (encodeColor u.opr.color s.fmt &&& mask 32 (8 * s.fmt.byteCount)) s.fmt = u.opr.color

/-- 44_pixel_access.md R129 law 4: under `GeometryWellFormed`, and with the other pixel left alone by the environment, a
SETPIXEL does not change what a GETPIXEL returns at any other in-bounds coordinate. -/
def Obligations.OtherPixelsKept : Prop :=
  ∀ (s : State) (x y : Word), s.TouchesRegion → s.GeometryWellFormed → s.world.region.wf = true →
    (x ≠ s.opr.x ∨ y ≠ s.opr.y) → (s.at x y).inBounds →
    s.world.PixelQuiet (2 * s.fmt.byteCount) (s.at x y).pixelOffset s.fmt.byteCount →
    ∃ t before after, exec .setpixel s = .next t ∧ exec .getpixel (s.at x y) = .next before ∧
      exec .getpixel (t.at x y) = .next after ∧ after.opr.color = before.opr.color

/-- 44_pixel_access.md R129 law 5; 20_memory.md R50: two GETPIXELs of a pixel that the environment leaves alone return the
same colour. -/
def Obligations.GetpixelTwice : Prop :=
  ∀ s : State, s.TouchesRegion → s.world.region.wf = true →
    s.world.PixelQuiet (2 * s.fmt.byteCount) s.pixelOffset s.fmt.byteCount →
    ∃ t u, exec .getpixel s = .next t ∧ exec .getpixel t = .next u ∧ u.opr.color = t.opr.color

/-! ### The assembler -/

/-- 30_encoding.md R70: SETDESC of a channel is one transaction, which leaves the three operands in that channel of the
descriptor and every other register as it was. -/
def Obligations.SetdescWrites : Prop :=
  ∀ (s : State) (ch : Channel) (len : BitVec 8) (off : BitVec 5) (msbr : Bool), s.status.fault = false →
    ∃ i t, expand (.setdesc ch len off msbr) = [i] ∧ exec i s = .next t ∧
      t.desc.channel ch = { length := len, offset := off, msbr := msbr } ∧
      (∀ r, r ≠ descReg ch → readRegister t r = readRegister s r) ∧
      t.world = { s.world with response := none }
end

