-- ==== Sys2Proof/Laws/Codec.lean ====
section
/-! SUPPORT. The bits of the codec's words: masks, and the packed pixel and its bytes. -/

namespace Sys2Proof.Machine

/-- The bits of `mask(n)` (00_scope.md R8). -/
theorem mask_getLsbD (w n j : Nat) (hj : j < w) : (mask w n).getLsbD j = decide (j < n) := by
  simp only [mask, BitVec.getLsbD_ofNat, hj, decide_true, Bool.true_and, Nat.testBit_two_pow_sub_one]

theorem assemble_succ (b : Nat → Byte) (n : Nat) :
    assemble b (n + 1) = assemble b n ||| ((b n).setWidth 32 <<< (8 * n)) := by
  simp [assemble, List.range_succ]

/-- The bits of an assembled pixel: byte `i` stands at bits `8 * i` up (44_pixel_access.md R125). -/
theorem assemble_getLsbD (b : Nat → Byte) (n j : Nat) (hj : j < 32) :
    (assemble b n).getLsbD j = (decide (j < 8 * n) && (b (j / 8)).getLsbD (j % 8)) := by
  induction n with
  | zero => simp [assemble]
  | succ n ih =>
    rw [assemble_succ, BitVec.getLsbD_or, ih, BitVec.getLsbD_shiftLeft, BitVec.getLsbD_setWidth]
    by_cases h1 : j < 8 * n
    · simp [h1, show j < 8 * (n + 1) by omega]
    · by_cases h2 : j < 8 * (n + 1)
      · have e1 : j / 8 = n := by omega
        have e2 : j % 8 = j - 8 * n := by omega
        simp only [h1, h2, hj, e1, e2, show j - 8 * n < 32 by omega]
        simp
      · have : (b n).getLsbD (j - 8 * n) = false := BitVec.getLsbD_of_ge _ _ (by omega)
        simp [h1, h2, this]

/-- The bits of a byte of a packed pixel (44_pixel_access.md R126). -/
theorem disassemble_getLsbD (p : Word) (i k : Nat) :
    (disassemble p i).getLsbD k = (decide (k < 8) && p.getLsbD (8 * i + k)) := by
  simp only [disassemble, BitVec.getLsbD_setWidth, BitVec.getLsbD_ushiftRight]

end Sys2Proof.Machine
end

