-- ==== Sys2Proof/Laws/Encoding.lean ====
section
/-! SUPPORT. Fields of words: where a bit of a field stands, the fields of the transactions, and that a decoded command
word is the command's word. -/

namespace Sys2Proof

/-- Where the bits of a placed field stand. -/
theorem fieldAt_getLsbD {n : Nat} (w lo : Nat) (v : BitVec n) (i : Nat) :
    (fieldAt w lo v).getLsbD i = (decide (i < w) && (decide (lo ≤ i) && v.getLsbD (i - lo))) := by
  by_cases h1 : i < w <;> by_cases h2 : lo ≤ i
  · have h3 : i - lo < w := by omega
    simp only [fieldAt, BitVec.getLsbD_shiftLeft, BitVec.getLsbD_setWidth]
    simp [h1, h2, h3]
  all_goals
    simp only [fieldAt, BitVec.getLsbD_shiftLeft, BitVec.getLsbD_setWidth]
    simp [h1, h2, Nat.lt_of_not_le]

theorem wrTransaction_we (addr : RegNumber) (wdata : Word) : (wrTransaction addr wdata).getLsbD 40 = true := by
  simp only [wrTransaction, BitVec.getLsbD_or, fieldAt_getLsbD]
  simp

theorem wrTransaction_addr (addr : RegNumber) (wdata : Word) :
    (wrTransaction addr wdata).extractLsb' 32 8 = addr := by
  apply BitVec.eq_of_getLsbD_eq
  intro i hi
  have h1 : 32 + i < 41 := by omega
  have h2 : ¬ 40 ≤ 32 + i := by omega
  simp only [wrTransaction, BitVec.getLsbD_extractLsb', BitVec.getLsbD_or, fieldAt_getLsbD]
  simp [hi, h1, h2]

theorem wrTransaction_wdata (addr : RegNumber) (wdata : Word) :
    (wrTransaction addr wdata).extractLsb' 0 32 = wdata := by
  apply BitVec.eq_of_getLsbD_eq
  intro i hi
  have h1 : i < 41 := by omega
  have h2 : ¬ 40 ≤ i := by omega
  have h3 : ¬ 32 ≤ i := by omega
  simp only [wrTransaction, BitVec.getLsbD_extractLsb', BitVec.getLsbD_or, fieldAt_getLsbD]
  simp [hi, h1, h2, h3]

theorem rdTransaction_we (addr : RegNumber) : (rdTransaction addr).getLsbD 40 = false := by
  simp only [rdTransaction, BitVec.getLsbD_or, fieldAt_getLsbD]
  simp

theorem rdTransaction_addr (addr : RegNumber) : (rdTransaction addr).extractLsb' 32 8 = addr := by
  apply BitVec.eq_of_getLsbD_eq
  intro i hi
  have h1 : 32 + i < 41 := by omega
  have h2 : ¬ 40 ≤ 32 + i := by omega
  simp only [rdTransaction, BitVec.getLsbD_extractLsb', BitVec.getLsbD_or, fieldAt_getLsbD]
  simp [hi, h1, h2]

theorem selectOfChannel_channelOfSelect (ch : BitVec 2) : selectOfChannel (channelOfSelect ch) = ch := by
  revert ch; decide

theorem channelOfSelect_selectOfChannel (ch : Channel) : channelOfSelect (selectOfChannel ch) = ch := by
  cases ch <;> rfl

/-- A word whose field ZERO is 0 is made of its fields CH and OPC (30_encoding.md R63). -/
theorem eq_commandWord {w : Word} (h : w.extractLsb' 10 22 = 0) :
    w = commandWord (w.extractLsb' 8 2) (w.extractLsb' 0 8) := by
  apply BitVec.eq_of_getLsbD_eq
  intro i hi
  simp only [commandWord, BitVec.getLsbD_or, fieldAt_getLsbD, BitVec.getLsbD_extractLsb']
  by_cases h1 : i < 8
  · simp [h1, hi, show ¬ 8 ≤ i by omega]
  · by_cases h2 : i < 10
    · simp [h1, hi, show 8 ≤ i by omega, show i - 8 < 2 by omega]
    · have := congrArg (fun v => v.getLsbD (i - 10)) h
      simp only [BitVec.getLsbD_extractLsb', BitVec.ofNat_eq_ofNat, BitVec.getLsbD_zero] at this
      rw [show 10 + (i - 10) = i by omega] at this
      simp [show i - 10 < 22 by omega] at this
      simp [this, h1, show ¬ i - 8 < 2 by omega]

/-- A command is decoded only from its own word. -/
theorem decodeCommand_ok {w : Word} {c : Command} (h : decodeCommand w = .ok c) : w = encodeCommand c := by
  simp only [decodeCommand] at h
  by_cases hz : w.extractLsb' 10 22 = 0
  · have e := eq_commandWord hz
    simp only [hz, ne_eq, not_true, if_false] at h
    split_ifs at h <;> cases h <;> refine e.trans ?_ <;> clear e <;>
      simp_all only [encodeCommand, selectOfChannel_channelOfSelect]
  · rw [if_pos hz] at h; cases h

theorem decodeCommand_encodeCommand (c : Command) : decodeCommand (encodeCommand c) = .ok c := by
  cases c with
  | pack ch => cases ch <;> decide
  | unpack ch => cases ch <;> decide
  | _ => decide

end Sys2Proof
end

