-- ==== Sys2Proof/Laws/Memory.lean ====
section
/-! SUPPORT. The laws of the region's bytes: what a write does to every read, and that it keeps the canonical form. -/

namespace Sys2Proof.Machine

theorem Memory.wfFrom_weaken {m : Memory} {lo lo' : Nat} (h : Memory.wfFrom lo' m = true) (hle : lo ≤ lo') :
    Memory.wfFrom lo m = true := by
  cases m with
  | nil => rfl
  | cons c m =>
    simp only [Memory.wfFrom, Bool.and_eq_true, decide_eq_true_eq] at h ⊢
    exact ⟨⟨by omega, h.1.2⟩, h.2⟩

theorem Memory.wf_tail {c : Host.Cell} {m : Memory} {lo : Nat} (h : Memory.wfFrom lo (c :: m) = true) :
    lo ≤ c.1 ∧ c.2 ≠ Config.unlistedByte ∧ Memory.wfFrom (c.1 + 1) m = true := by
  simp only [Memory.wfFrom, Bool.and_eq_true, decide_eq_true_eq] at h
  exact ⟨h.1.1, h.1.2, h.2⟩

theorem Memory.wfFrom_cons {b lo : Nat} {w : Byte} {m : Memory} (hlo : lo ≤ b) (hw : w ≠ Config.unlistedByte)
    (hm : Memory.wfFrom (b + 1) m = true) : Memory.wfFrom lo ((b, w) :: m) = true := by
  simp only [Memory.wfFrom, Bool.and_eq_true, decide_eq_true_eq]
  exact ⟨⟨hlo, hw⟩, hm⟩

/-- Below its first offset a canonical memory lists nothing. -/
theorem Memory.read_below {m : Memory} {lo a : Nat} (h : Memory.wfFrom lo m = true) (ha : a < lo) :
    m.read a = Config.unlistedByte := by
  induction m generalizing lo with
  | nil => rfl
  | cons c m ih =>
    obtain ⟨h1, -, h3⟩ := Memory.wf_tail h
    have hne : a ≠ c.1 := by omega
    simp only [Memory.read, hne, if_false]
    exact ih h3 (by omega)

theorem Memory.wfFrom_write {m : Memory} {lo a : Nat} (v : Byte) (h : Memory.wfFrom lo m = true) (ha : lo ≤ a) :
    Memory.wfFrom lo (m.write a v) = true := by
  induction m generalizing lo with
  | nil =>
    unfold Memory.write
    split
    · rfl
    · exact Memory.wfFrom_cons ha ‹_› rfl
  | cons c m ih =>
    obtain ⟨b, w⟩ := c
    obtain ⟨h1, h2, h3⟩ := Memory.wf_tail h
    unfold Memory.write
    split
    · split
      · exact h
      · exact Memory.wfFrom_cons ha ‹_› (Memory.wfFrom_cons ‹_› h2 h3)
    · split
      · subst ‹a = b›
        split
        · exact Memory.wfFrom_weaken h3 (by simp only; omega)
        · exact Memory.wfFrom_cons h1 ‹_› h3
      · exact Memory.wfFrom_cons h1 h2 (ih h3 (by omega))

/-- A write keeps the canonical form. -/
theorem Memory.wf_write {m : Memory} (a : Nat) (v : Byte) (h : m.wf = true) : (m.write a v).wf = true :=
  Memory.wfFrom_write v h (Nat.zero_le a)

theorem Memory.read_write_from {m : Memory} {lo : Nat} (a x : Nat) (v : Byte) (h : Memory.wfFrom lo m = true) :
    (m.write a v).read x = if x = a then v else m.read x := by
  induction m generalizing lo with
  | nil =>
    unfold Memory.write
    split
    · subst v; split <;> rfl
    · rfl
  | cons c m ih =>
    obtain ⟨b, w⟩ := c
    obtain ⟨-, -, h3⟩ := Memory.wf_tail h
    unfold Memory.write
    split
    · rename_i hab
      split
      · subst v
        split
        · subst x
          have hne : a ≠ b := by omega
          simp only [Memory.read, hne, if_false]
          exact Memory.read_below h3 (by simp only; omega)
        · rfl
      · rfl
    · split
      · subst ‹a = b›
        split
        · subst v
          split
          · subst x; exact Memory.read_below h3 (Nat.lt_succ_self _)
          · rename_i hx; simp only [Memory.read, hx, if_false]
        · simp only [Memory.read]; split <;> rfl
      · rename_i hab
        simp only [Memory.read, ih h3]
        by_cases hxb : x = b
        · subst x; simp only [if_true]
          have : b ≠ a := fun e => hab e.symm
          simp only [this, if_false]
        · simp only [hxb, if_false]

/-- What a write does to every read (20_memory.md R42). -/
theorem Memory.read_write {m : Memory} (a x : Nat) (v : Byte) (h : m.wf = true) :
    (m.write a v).read x = if x = a then v else m.read x :=
  Memory.read_write_from a x v h

/-- The offsets a write lists: those listed before, and its own. -/
theorem Memory.mem_write {m : Memory} {a : Nat} {v : Byte} {c : Host.Cell} (h : c ∈ m.write a v) :
    c = (a, v) ∨ c ∈ m := by
  induction m with
  | nil =>
    unfold Memory.write at h
    split at h
    · cases h
    · exact .inl (List.mem_singleton.mp h)
  | cons d m ih =>
    obtain ⟨b, w⟩ := d
    unfold Memory.write at h
    split at h
    · split at h
      · exact .inr h
      · exact (List.mem_cons.mp h)
    · split at h
      · split at h
        · exact .inr (List.mem_cons_of_mem _ h)
        · rcases List.mem_cons.mp h with e | e
          · exact .inl e
          · exact .inr (List.mem_cons_of_mem _ e)
      · rcases List.mem_cons.mp h with e | e
        · exact .inr (e ▸ List.mem_cons_self)
        · exact (ih e).imp id (List.mem_cons_of_mem _)

/-! ### The memory of given contents -/

/-- A byte that given contents list is theirs, at an offset below the size. -/
theorem Memory.mem_ofContents {f : Nat → Byte} {n : Nat} {c : Host.Cell} (h : c ∈ Memory.ofContents f n) :
    c.1 < n ∧ c.2 = f c.1 := by
  simp only [Memory.ofContents, List.mem_filter, List.mem_map, List.mem_range] at h
  obtain ⟨⟨off, hoff, rfl⟩, -⟩ := h
  exact ⟨hoff, rfl⟩

/-- Given contents are in canonical form. -/
theorem Memory.wf_ofContents (f : Nat → Byte) (n : Nat) : (Memory.ofContents f n).wf = true := by
  have h : ∀ n lo, Memory.wfFrom lo
      (((List.range' lo n).map fun off => (off, f off)).filter fun c => decide (c.2 ≠ Config.unlistedByte)) = true := by
    intro n
    induction n with
    | zero => intro lo; rfl
    | succ n ih =>
      intro lo
      rw [List.range'_succ, List.map_cons, List.filter_cons]
      split
      · exact Memory.wfFrom_cons (Nat.le_refl lo) (of_decide_eq_true ‹_›) (ih (lo + 1))
      · exact Memory.wfFrom_weaken (ih (lo + 1)) (Nat.le_succ lo)
  unfold Memory.wf Memory.ofContents
  rw [List.range_eq_range']
  exact h n 0

end Sys2Proof.Machine
end

