-- ==== Sys2Proof/Laws/State.lean ====
section
/-! SUPPORT. One lemma per field of `State` per named update, so that no later proof unfolds a record update. -/

namespace Sys2Proof.Machine

/-! ### setPix -/

@[simp] theorem setPix_desc (s : State) (p : Word) : (s.setPix p).desc = s.desc := rfl
@[simp] theorem setPix_fmt (s : State) (p : Word) : (s.setPix p).fmt = s.fmt := rfl
@[simp] theorem setPix_buf (s : State) (p : Word) : (s.setPix p).buf = s.buf := rfl
@[simp] theorem setPix_opr (s : State) (p : Word) : (s.setPix p).opr = { s.opr with pix := p } := rfl
@[simp] theorem setPix_status (s : State) (p : Word) : (s.setPix p).status = s.status := rfl
@[simp] theorem setPix_world (s : State) (p : Word) : (s.setPix p).world = s.world := rfl

/-! ### setV16 -/

@[simp] theorem setV16_desc (s : State) (v : Half) : (s.setV16 v).desc = s.desc := rfl
@[simp] theorem setV16_fmt (s : State) (v : Half) : (s.setV16 v).fmt = s.fmt := rfl
@[simp] theorem setV16_buf (s : State) (v : Half) : (s.setV16 v).buf = s.buf := rfl
@[simp] theorem setV16_opr (s : State) (v : Half) : (s.setV16 v).opr = { s.opr with v16 := v } := rfl
@[simp] theorem setV16_status (s : State) (v : Half) : (s.setV16 v).status = s.status := rfl
@[simp] theorem setV16_world (s : State) (v : Half) : (s.setV16 v).world = s.world := rfl

/-! ### setColor -/

@[simp] theorem setColor_desc (s : State) (c : Color) : (s.setColor c).desc = s.desc := rfl
@[simp] theorem setColor_fmt (s : State) (c : Color) : (s.setColor c).fmt = s.fmt := rfl
@[simp] theorem setColor_buf (s : State) (c : Color) : (s.setColor c).buf = s.buf := rfl
@[simp] theorem setColor_opr (s : State) (c : Color) : (s.setColor c).opr = { s.opr with color := c } := rfl
@[simp] theorem setColor_status (s : State) (c : Color) : (s.setColor c).status = s.status := rfl
@[simp] theorem setColor_world (s : State) (c : Color) : (s.setColor c).world = s.world := rfl

/-! ### setWorld -/

@[simp] theorem setWorld_desc (s : State) (w : World) : (s.setWorld w).desc = s.desc := rfl
@[simp] theorem setWorld_fmt (s : State) (w : World) : (s.setWorld w).fmt = s.fmt := rfl
@[simp] theorem setWorld_buf (s : State) (w : World) : (s.setWorld w).buf = s.buf := rfl
@[simp] theorem setWorld_opr (s : State) (w : World) : (s.setWorld w).opr = s.opr := rfl
@[simp] theorem setWorld_status (s : State) (w : World) : (s.setWorld w).status = s.status := rfl
@[simp] theorem setWorld_world (s : State) (w : World) : (s.setWorld w).world = w := rfl

/-! ### answer -/

@[simp] theorem answer_desc (s : State) (r : Option Word) : (s.answer r).desc = s.desc := rfl
@[simp] theorem answer_fmt (s : State) (r : Option Word) : (s.answer r).fmt = s.fmt := rfl
@[simp] theorem answer_buf (s : State) (r : Option Word) : (s.answer r).buf = s.buf := rfl
@[simp] theorem answer_opr (s : State) (r : Option Word) : (s.answer r).opr = s.opr := rfl
@[simp] theorem answer_status (s : State) (r : Option Word) : (s.answer r).status = s.status := rfl
@[simp] theorem answer_world (s : State) (r : Option Word) : (s.answer r).world = { s.world with response := r } := rfl

/-! ### raiseUnsupportedFormat -/

@[simp] theorem raiseUnsupportedFormat_desc (s : State) (e : FormatError) : (raiseUnsupportedFormat e s).desc = s.desc := rfl
@[simp] theorem raiseUnsupportedFormat_fmt (s : State) (e : FormatError) : (raiseUnsupportedFormat e s).fmt = s.fmt := rfl
@[simp] theorem raiseUnsupportedFormat_buf (s : State) (e : FormatError) : (raiseUnsupportedFormat e s).buf = s.buf := rfl
@[simp] theorem raiseUnsupportedFormat_opr (s : State) (e : FormatError) : (raiseUnsupportedFormat e s).opr = s.opr := rfl
@[simp] theorem raiseUnsupportedFormat_status (s : State) (e : FormatError) : (raiseUnsupportedFormat e s).status = { s.status with fmtErr := e.code } := rfl
@[simp] theorem raiseUnsupportedFormat_world (s : State) (e : FormatError) : (raiseUnsupportedFormat e s).world = s.world := rfl

/-! ### discardFormat -/

@[simp] theorem discardFormat_desc (s : State) : (discardFormat s).desc = s.desc := rfl
@[simp] theorem discardFormat_fmt (s : State) : (discardFormat s).fmt = .zero := rfl
@[simp] theorem discardFormat_buf (s : State) : (discardFormat s).buf = .zero := rfl
@[simp] theorem discardFormat_opr (s : State) : (discardFormat s).opr = s.opr := rfl
@[simp] theorem discardFormat_status (s : State) : (discardFormat s).status =
      { s.status with fmtValid := false, bufValid := false, zlw := false, fmtErr := 0 } := rfl
@[simp] theorem discardFormat_world (s : State) : (discardFormat s).world = s.world := rfl

/-! ### latchFormat -/

@[simp] theorem latchFormat_desc (s : State) (f : PixelFormat) : (latchFormat f s).desc = s.desc := rfl
@[simp] theorem latchFormat_fmt (s : State) (f : PixelFormat) : (latchFormat f s).fmt = f := rfl
@[simp] theorem latchFormat_buf (s : State) (f : PixelFormat) : (latchFormat f s).buf = s.buf := rfl
@[simp] theorem latchFormat_opr (s : State) (f : PixelFormat) : (latchFormat f s).opr = s.opr := rfl
@[simp] theorem latchFormat_status (s : State) (f : PixelFormat) : (latchFormat f s).status = { s.status with zlw := zeroLengthWarning f, fmtValid := true } := rfl
@[simp] theorem latchFormat_world (s : State) (f : PixelFormat) : (latchFormat f s).world = s.world := rfl

/-! ### latchBuffer -/

@[simp] theorem latchBuffer_desc (s : State) : (latchBuffer s).desc = s.desc := rfl
@[simp] theorem latchBuffer_fmt (s : State) : (latchBuffer s).fmt = s.fmt := rfl
@[simp] theorem latchBuffer_buf (s : State) : (latchBuffer s).buf =
      { pitch := s.desc.pitch, width := s.desc.xres, height := s.desc.yres } := rfl
@[simp] theorem latchBuffer_opr (s : State) : (latchBuffer s).opr = s.opr := rfl
@[simp] theorem latchBuffer_status (s : State) : (latchBuffer s).status = { s.status with bufValid := true } := rfl
@[simp] theorem latchBuffer_world (s : State) : (latchBuffer s).world = s.world := rfl

/-! ### resetUnit -/

@[simp] theorem resetUnit_desc (s : State) : s.resetUnit.desc = .zero := rfl
@[simp] theorem resetUnit_fmt (s : State) : s.resetUnit.fmt = .zero := rfl
@[simp] theorem resetUnit_buf (s : State) : s.resetUnit.buf = .zero := rfl
@[simp] theorem resetUnit_opr (s : State) : s.resetUnit.opr = .zero := rfl
@[simp] theorem resetUnit_status (s : State) : s.resetUnit.status = .zero := rfl
@[simp] theorem resetUnit_world (s : State) : s.resetUnit.world = { s.world with response := none } := rfl

/-! ### beginEvent -/

@[simp] theorem beginEvent_desc (s : State) (es : List Event) : (s.beginEvent es).desc = s.desc := rfl
@[simp] theorem beginEvent_fmt (s : State) (es : List Event) : (s.beginEvent es).fmt = s.fmt := rfl
@[simp] theorem beginEvent_buf (s : State) (es : List Event) : (s.beginEvent es).buf = s.buf := rfl
@[simp] theorem beginEvent_opr (s : State) (es : List Event) : (s.beginEvent es).opr = s.opr := rfl
@[simp] theorem beginEvent_status (s : State) (es : List Event) : (s.beginEvent es).status = s.status := rfl
@[simp] theorem beginEvent_world (s : State) (es : List Event) : (s.beginEvent es).world = { s.world with script := es, traffic := [] } := rfl

/-! ### environmentStep -/

@[simp] theorem environmentStep_desc (s : State) (a : EnvAction) : (s.environmentStep a).desc = s.desc := rfl
@[simp] theorem environmentStep_fmt (s : State) (a : EnvAction) : (s.environmentStep a).fmt = s.fmt := rfl
@[simp] theorem environmentStep_buf (s : State) (a : EnvAction) : (s.environmentStep a).buf = s.buf := rfl
@[simp] theorem environmentStep_opr (s : State) (a : EnvAction) : (s.environmentStep a).opr = s.opr := rfl
@[simp] theorem environmentStep_status (s : State) (a : EnvAction) : (s.environmentStep a).status = s.status := rfl
@[simp] theorem environmentStep_world (s : State) (a : EnvAction) : (s.environmentStep a).world = s.world.environmentAct a := rfl

/-! ### pushTransaction -/

@[simp] theorem pushTransaction_desc (s : State) (t : Transaction) : (s.pushTransaction t).desc = s.desc := rfl
@[simp] theorem pushTransaction_fmt (s : State) (t : Transaction) : (s.pushTransaction t).fmt = s.fmt := rfl
@[simp] theorem pushTransaction_buf (s : State) (t : Transaction) : (s.pushTransaction t).buf = s.buf := rfl
@[simp] theorem pushTransaction_opr (s : State) (t : Transaction) : (s.pushTransaction t).opr = s.opr := rfl
@[simp] theorem pushTransaction_status (s : State) (t : Transaction) : (s.pushTransaction t).status = s.status := rfl
@[simp] theorem pushTransaction_world (s : State) (t : Transaction) : (s.pushTransaction t).world =
      { s.world with script := .transaction t :: s.world.script } := rfl

/-! ### takeFault: only STATUS, and only the first fault -/

@[simp] theorem takeFault_desc (f : Fault) (s : State) : (takeFault f s).desc = s.desc := by
  unfold takeFault; split <;> rfl
@[simp] theorem takeFault_fmt (f : Fault) (s : State) : (takeFault f s).fmt = s.fmt := by
  unfold takeFault; split <;> rfl
@[simp] theorem takeFault_buf (f : Fault) (s : State) : (takeFault f s).buf = s.buf := by
  unfold takeFault; split <;> rfl
@[simp] theorem takeFault_opr (f : Fault) (s : State) : (takeFault f s).opr = s.opr := by
  unfold takeFault; split <;> rfl
@[simp] theorem takeFault_world (f : Fault) (s : State) : (takeFault f s).world = s.world := by
  unfold takeFault; split <;> rfl

theorem takeFault_running (f : Fault) (s : State) (h : s.status.fault = false) :
    takeFault f s = { s with status := { s.status with fault := true, faultCode := f.code } } := by
  simp [takeFault, h]

theorem takeFault_halted (f : Fault) (s : State) (h : s.status.fault = true) : takeFault f s = s := by
  simp [takeFault, h]

/-! ### The fields of the world that an answer, an event or a write to a register leaves -/

@[simp] theorem answer_region (s : State) (r : Option Word) : (s.answer r).world.region = s.world.region := rfl
@[simp] theorem answer_regionSize (s : State) (r : Option Word) : (s.answer r).world.regionSize = s.world.regionSize := rfl
@[simp] theorem answer_envMayWrite (s : State) (r : Option Word) : (s.answer r).world.envMayWrite = s.world.envMayWrite := rfl
@[simp] theorem answer_script (s : State) (r : Option Word) : (s.answer r).world.script = s.world.script := rfl
@[simp] theorem answer_schedule (s : State) (r : Option Word) : (s.answer r).world.schedule = s.world.schedule := rfl
@[simp] theorem answer_traffic (s : State) (r : Option Word) : (s.answer r).world.traffic = s.world.traffic := rfl
@[simp] theorem answer_response (s : State) (r : Option Word) : (s.answer r).world.response = r := rfl

@[simp] theorem writeRegister_world (s : State) (w : Word) (r : Reg) : (writeRegister s w r).world = s.world := by
  cases r <;> rfl
@[simp] theorem writeRegister_status (s : State) (w : Word) (r : Reg) : (writeRegister s w r).status = s.status := by
  cases r <;> rfl
@[simp] theorem writeRegister_fmt (s : State) (w : Word) (r : Reg) : (writeRegister s w r).fmt = s.fmt := by
  cases r <;> rfl
@[simp] theorem writeRegister_buf (s : State) (w : Word) (r : Reg) : (writeRegister s w r).buf = s.buf := by
  cases r <;> rfl

end Sys2Proof.Machine
end

