-- ==== Sys2Proof/Laws/World.lean ====
section
/-! SUPPORT. What the byte accesses of a pixel and the environment's part can do, said once: the accesses seen, the
region they leave, and the parts of the world they do not touch. -/

namespace Sys2Proof.Machine

/-! ### The order of the bytes of a pixel -/

theorem putBehind_perm {α : Type} (k : Nat) (x : α) (ys : List α) : (putBehind k x ys).Perm (x :: ys) := by
  unfold putBehind
  exact (List.perm_middle).trans (by rw [List.take_append_drop])

/-- Whatever the places are, every element is there once (20_memory.md R46, R48). -/
theorem arrange_perm {α : Type} (places : List Nat) (xs : List α) : (arrange places xs).Perm xs := by
  induction xs generalizing places with
  | nil => cases places <;> exact .refl _
  | cons x xs ih =>
    have : arrange places (x :: xs) = putBehind (places.headD 0) x (arrange places.tail xs) := by
      cases places <;> rfl
    rw [this]
    exact (putBehind_perm _ _ _).trans ((ih _).cons x)

/-- Every order is given by some places (20_memory.md R48). -/
theorem arrange_exists {α : Type} {order xs : List α} (h : order.Perm xs) :
    ∃ places, places.length = xs.length ∧ arrange places xs = order := by
  induction xs generalizing order with
  | nil => exact ⟨[], rfl, (List.Perm.eq_nil h).symm ▸ rfl⟩
  | cons x xs ih =>
    obtain ⟨l₁, l₂, rfl⟩ := List.append_of_mem (h.mem_iff.mpr List.mem_cons_self)
    obtain ⟨places, hl, hp⟩ := ih ((List.perm_middle.symm.trans h).cons_inv)
    refine ⟨l₁.length :: places, by simp [hl], ?_⟩
    show putBehind l₁.length x (arrange places xs) = _
    rw [hp]
    simp [putBehind]

theorem arrange_map {α β : Type} (f : α → β) (places : List Nat) (xs : List α) :
    arrange places (xs.map f) = (arrange places xs).map f := by
  induction xs generalizing places with
  | nil => cases places <;> rfl
  | cons x xs ih => cases places <;> simp [arrange, putBehind, ih, List.map_take, List.map_drop]

/-! ### Moves of the world -/

theorem replay_append (l₁ l₂ : List Access) (m : Memory) : replay (l₁ ++ l₂) m = replay l₂ (replay l₁ m) := by
  induction l₁ generalizing m with
  | nil => rfl
  | cons a l ih => exact ih _

/-- The accesses `l` take the world `w` to `w'`, using the next `k` slots; nothing but region, schedule and traffic
changes. -/
structure World.Moves (w w' : World) (l : List Access) (k : Nat) : Prop where
  traffic : w'.traffic = w.traffic ++ l
  region : w'.region = replay l w.region
  schedule : w'.schedule = w.schedule.drop k
  regionSize : w'.regionSize = w.regionSize
  envMayWrite : w'.envMayWrite = w.envMayWrite
  script : w'.script = w.script
  response : w'.response = w.response

theorem World.Moves.refl (w : World) : World.Moves w w [] 0 :=
  ⟨(List.append_nil _).symm, rfl, rfl, rfl, rfl, rfl, rfl⟩

theorem World.Moves.trans {w w' w'' : World} {l l' : List Access} {k k' : Nat} (h : World.Moves w w' l k)
    (h' : World.Moves w' w'' l' k') : World.Moves w w'' (l ++ l') (k + k') where
  traffic := by rw [h'.traffic, h.traffic, List.append_assoc]
  region := by rw [h'.region, h.region, replay_append]
  schedule := by rw [h'.schedule, h.schedule, List.drop_drop]
  regionSize := h'.regionSize.trans h.regionSize
  envMayWrite := h'.envMayWrite.trans h.envMayWrite
  script := h'.script.trans h.script
  response := h'.response.trans h.response

theorem World.memRead_moves (w : World) (who : Agent) (off : Nat) :
    World.Moves w (w.memRead who off) [⟨who, .read, off, w.region.read off⟩] 0 :=
  ⟨rfl, rfl, rfl, rfl, rfl, rfl, rfl⟩

theorem World.memWrite_moves (w : World) (who : Agent) (off : Nat) (v : Byte) :
    World.Moves w (w.memWrite who off v) [⟨who, .write, off, v⟩] 0 :=
  ⟨rfl, rfl, rfl, rfl, rfl, rfl, rfl⟩

/-- The environment's accesses: its own, admitted, and a write only when ENV_MAY_WRITE holds and the action says it
(20_memory.md R52, R53). -/
def EnvironmentAccess (w : World) (acts : List EnvAction) (a : Access) : Prop :=
  a.agent = .environment ∧ w.admits a.off ∧
    (a.kind = .write → w.envMayWrite = true ∧ EnvAction.write a.off a.val ∈ acts)

/-- Everything one environment action can do. -/
theorem World.environmentAct_moves (w : World) (act : EnvAction) :
    ∃ l, World.Moves w (w.environmentAct act) l 0 ∧ ∀ a ∈ l, EnvironmentAccess w [act] a := by
  cases act with
  | read off =>
    simp only [World.environmentAct]
    split
    · refine ⟨_, w.memRead_moves _ _, fun a ha => ?_⟩
      rw [List.mem_singleton.mp ha]
      exact ⟨rfl, ‹_›, fun h => nomatch h⟩
    · exact ⟨[], World.Moves.refl w, fun _ ha => absurd ha List.not_mem_nil⟩
  | write off v =>
    simp only [World.environmentAct]
    split
    · rename_i h
      refine ⟨_, w.memWrite_moves _ _ _, fun a ha => ?_⟩
      rw [List.mem_singleton.mp ha]
      exact ⟨rfl, h.2, fun _ => ⟨h.1, List.mem_singleton.mpr rfl⟩⟩
    · exact ⟨[], World.Moves.refl w, fun _ ha => absurd ha List.not_mem_nil⟩

theorem EnvironmentAccess.of_moves {w w' : World} {l : List Access} {k : Nat} {acts acts' : List EnvAction} {a : Access}
    (h : World.Moves w w' l k) (hs : ∀ x ∈ acts, x ∈ acts') (ha : EnvironmentAccess w' acts a) :
    EnvironmentAccess w acts' a := by
  obtain ⟨h1, h2, h3⟩ := ha
  refine ⟨h1, ?_, fun hk => ?_⟩
  · unfold World.admits at h2 ⊢; rw [← h.regionSize]; exact h2
  · rw [← h.envMayWrite]; exact ⟨(h3 hk).1, hs _ (h3 hk).2⟩

theorem World.environmentActs_moves (w : World) (acts : List EnvAction) :
    ∃ l, World.Moves w (acts.foldl World.environmentAct w) l 0 ∧ ∀ a ∈ l, EnvironmentAccess w acts a := by
  induction acts generalizing w with
  | nil => exact ⟨[], World.Moves.refl w, fun _ ha => absurd ha List.not_mem_nil⟩
  | cons act acts ih =>
    obtain ⟨l₁, m₁, e₁⟩ := w.environmentAct_moves act
    obtain ⟨l₂, m₂, e₂⟩ := ih (w.environmentAct act)
    refine ⟨l₁ ++ l₂, m₁.trans m₂, fun a ha => ?_⟩
    rcases List.mem_append.mp ha with h | h
    · exact (e₁ a h).of_moves (World.Moves.refl w) (fun x hx => List.mem_singleton.mp hx ▸ List.mem_cons_self)
    · exact (e₂ a h).of_moves m₁ (fun x hx => List.mem_cons_of_mem _ hx)

/-- Everything a slot can do: the environment's accesses that it lists. -/
theorem World.nextSlot_moves (w : World) :
    ∃ l, World.Moves w w.nextSlot l 1 ∧ ∀ a ∈ l, ∃ slot ∈ w.schedule.take 1, EnvironmentAccess w slot.acts a := by
  unfold World.nextSlot
  match hs : w.schedule with
  | [] => exact ⟨[], ⟨(List.append_nil _).symm, rfl, by simp [hs], rfl, rfl, rfl, rfl⟩, fun _ ha => absurd ha List.not_mem_nil⟩
  | slot :: rest =>
    have m₀ : World.Moves w { w with schedule := rest } [] 1 :=
      ⟨(List.append_nil _).symm, rfl, by simp [hs], rfl, rfl, rfl, rfl⟩
    obtain ⟨l, m, e⟩ := World.environmentActs_moves { w with schedule := rest } slot.acts
    exact ⟨l, m₀.trans m, fun a ha => ⟨slot, by simp, (e a ha).of_moves m₀ (fun _ h => h)⟩⟩

/-! ### Reads and writes after a list of accesses -/

theorem wf_replay (l : List Access) {m : Memory} (h : m.wf = true) : (replay l m).wf = true := by
  induction l generalizing m with
  | nil => exact h
  | cons a l ih =>
    unfold replay
    split
    · exact ih h
    · exact ih (Memory.wf_write _ _ h)

/-- A byte that none of the accesses writes reads as before. -/
theorem read_replay_of_not_written (l : List Access) {m : Memory} {x : Nat} (h : m.wf = true)
    (hx : ∀ a ∈ l, a.kind = .write → a.off ≠ x) : (replay l m).read x = m.read x := by
  induction l generalizing m with
  | nil => rfl
  | cons a l ih =>
    have hl := fun b hb => hx b (List.mem_cons_of_mem _ hb)
    unfold replay
    split
    · exact ih h hl
    · rw [ih (Memory.wf_write _ _ h) hl, Memory.read_write _ _ _ h]
      simp [(hx a List.mem_cons_self ‹_›).symm]

theorem mem_replay (l : List Access) {m : Memory} {c : Host.Cell} (h : c ∈ replay l m) :
    c ∈ m ∨ ∃ a ∈ l, a.kind = .write ∧ a.off = c.1 := by
  induction l generalizing m with
  | nil => exact .inl h
  | cons a l ih =>
    unfold replay at h
    split at h
    · exact (ih h).imp id fun ⟨b, hb, e⟩ => ⟨b, List.mem_cons_of_mem _ hb, e⟩
    · rcases ih h with h' | ⟨b, hb, e⟩
      · rcases Memory.mem_write h' with e | e
        · exact .inr ⟨a, List.mem_cons_self, ‹_›, e ▸ rfl⟩
        · exact .inl e
      · exact .inr ⟨b, List.mem_cons_of_mem _ hb, e⟩

/-- Accesses that are all admitted keep the region as it must be. -/
theorem World.Moves.ok {w w' : World} {l : List Access} {k : Nat} (m : World.Moves w w' l k) (h : w.Ok)
    (hl : ∀ a ∈ l, w.admits a.off) : w'.Ok := by
  refine ⟨by rw [m.region]; exact wf_replay l h.1, fun c hc => ?_⟩
  rw [m.region] at hc
  show c.1 < w'.regionSize.val
  rw [m.regionSize]
  rcases mem_replay l hc with h' | ⟨a, ha, -, e⟩
  · exact h.2 c h'
  · exact e ▸ hl a ha

/-- A quiet byte keeps its value through a slot, and stays quiet. -/
theorem World.nextSlot_quiet {w : World} {k x : Nat} (h : w.QuietAt (k + 1) x) (hw : w.region.wf = true) :
    w.nextSlot.region.read x = w.region.read x ∧ w.nextSlot.QuietAt k x := by
  obtain ⟨l, m, e⟩ := w.nextSlot_moves
  constructor
  · rw [m.region]
    refine read_replay_of_not_written l hw fun a ha hk hx => ?_
    obtain ⟨slot, hs, -, -, h3⟩ := e a ha
    obtain ⟨hm, hin⟩ := h3 hk
    refine h hm slot ?_ a.val (hx ▸ hin)
    exact List.mem_of_mem_take (by rwa [List.take_take, Nat.min_eq_left (by omega)] : slot ∈ (w.schedule.take (k + 1)).take 1)
  · intro hm slot hs v hv
    rw [m.envMayWrite] at hm
    rw [m.schedule] at hs
    refine h hm slot ?_ v hv
    rw [← List.take_append_drop 1 (w.schedule.take (k + 1))]
    refine List.mem_append_right _ ?_
    rw [List.drop_take]
    exact hs

/-- A byte that is quiet for some accesses is quiet for fewer. -/
theorem World.QuietAt.of_le {w : World} {j k x : Nat} (h : w.QuietAt k x) (hjk : j ≤ k) : w.QuietAt j x := by
  intro hm slot hs v hv
  refine h hm slot (List.mem_of_mem_take (?_ : slot ∈ (w.schedule.take k).take j)) v hv
  rwa [List.take_take, Nat.min_eq_left hjk]

/-- A byte that is quiet for `j + k` accesses is quiet for `k` more after the first `j`. -/
theorem World.Moves.quiet {w w' : World} {l : List Access} {j k x : Nat} (m : World.Moves w w' l j)
    (h : w.QuietAt (j + k) x) : w'.QuietAt k x := by
  intro hm slot hs v hv
  rw [m.envMayWrite] at hm
  rw [m.schedule] at hs
  refine h hm slot ?_ v hv
  rw [← List.take_append_drop j (w.schedule.take (j + k)), List.drop_take, Nat.add_sub_cancel_left]
  exact List.mem_append_right _ hs

theorem World.nextSlot_wf {w : World} (hw : w.region.wf = true) : w.nextSlot.region.wf = true := by
  obtain ⟨l, m, -⟩ := w.nextSlot_moves
  rw [m.region]; exact wf_replay l hw

/-! ### The byte accesses of a pixel -/

/-- The accesses of the environment while `k` bytes are accessed. -/
def EnvironmentDuring (w : World) (k : Nat) (a : Access) : Prop :=
  ∃ slot ∈ w.schedule.take k, EnvironmentAccess w slot.acts a

theorem EnvironmentDuring.later {w w' : World} {l : List Access} {k : Nat} {a : Access} (m : World.Moves w w' l 1)
    (h : EnvironmentDuring w' k a) : EnvironmentDuring w (k + 1) a := by
  obtain ⟨slot, hs, he⟩ := h
  refine ⟨slot, ?_, he.of_moves m fun _ h => h⟩
  rw [m.schedule] at hs
  rw [← List.take_append_drop 1 (w.schedule.take (k + 1)), List.drop_take]
  exact List.mem_append_right _ hs

theorem EnvironmentDuring.now {w : World} {k : Nat} {a : Access}
    (h : ∃ slot ∈ w.schedule.take 1, EnvironmentAccess w slot.acts a) : EnvironmentDuring w (k + 1) a := by
  obtain ⟨slot, hs, he⟩ := h
  refine ⟨slot, ?_, he⟩
  rw [← List.take_append_drop 1 (w.schedule.take (k + 1)), List.take_take, Nat.min_eq_left (by omega)]
  exact List.mem_append_left _ hs

theorem unitAccesses_append (l₁ l₂ : List Access) : unitAccesses (l₁ ++ l₂) = unitAccesses l₁ ++ unitAccesses l₂ :=
  List.filter_append ..

theorem unitAccesses_environment {l : List Access} (h : ∀ a ∈ l, a.agent = .environment) : unitAccesses l = [] := by
  unfold unitAccesses
  rw [List.filter_eq_nil_iff]
  intro a ha
  simp [h a ha]

/-- Everything the byte reads of a pixel can do. -/
theorem World.readBytes_moves (offs : List Nat) (w : World) :
    ∃ l, World.Moves w (World.readBytes offs w).1 l offs.length ∧
      (∀ a ∈ l, (a.agent = .unit ∧ a.kind = .read ∧ a.off ∈ offs) ∨ EnvironmentDuring w offs.length a) ∧
      (unitAccesses l).map (fun a => (a.kind, a.off)) = offs.map (fun o => (.read, o)) := by
  induction offs generalizing w with
  | nil => exact ⟨[], World.Moves.refl w, fun _ ha => absurd ha List.not_mem_nil, rfl⟩
  | cons off offs ih =>
    obtain ⟨l₁, m₁, e₁⟩ := w.nextSlot_moves
    have m₂ := w.nextSlot.memRead_moves .unit off
    obtain ⟨l₃, m₃, e₃, u₃⟩ := ih (w.nextSlot.memRead .unit off)
    refine ⟨l₁ ++ ([⟨.unit, .read, off, w.nextSlot.region.read off⟩] ++ l₃), ?_, fun a ha => ?_, ?_⟩
    · have := m₁.trans (m₂.trans m₃)
      simp only [Nat.zero_add, Nat.add_comm 1] at this
      exact this
    · rcases List.mem_append.mp ha with h | h
      · exact .inr (EnvironmentDuring.now (e₁ a h))
      · rcases List.mem_append.mp h with h | h
        · rw [List.mem_singleton.mp h]; exact .inl ⟨rfl, rfl, List.mem_cons_self⟩
        · rcases e₃ a h with ⟨h1, h2, h3⟩ | h'
          · exact .inl ⟨h1, h2, List.mem_cons_of_mem _ h3⟩
          · exact .inr (EnvironmentDuring.later (m₁.trans m₂) h')
    · rw [unitAccesses_append, unitAccesses_append, unitAccesses_environment fun a ha => ?_]
      · simp [unitAccesses] at u₃ ⊢
        exact u₃
      · obtain ⟨_, _, h⟩ := e₁ a ha
        exact h.1

/-- Everything the byte writes of a pixel can do. -/
theorem World.writeBytes_moves (cells : List Host.Cell) (w : World) :
    ∃ l, World.Moves w (World.writeBytes cells w) l cells.length ∧
      (∀ a ∈ l, (a.agent = .unit ∧ a.kind = .write ∧ (a.off, a.val) ∈ cells) ∨ EnvironmentDuring w cells.length a) ∧
      (unitAccesses l).map (fun a => (a.kind, a.off, a.val)) = cells.map (fun c => (.write, c.1, c.2)) := by
  induction cells generalizing w with
  | nil => exact ⟨[], World.Moves.refl w, fun _ ha => absurd ha List.not_mem_nil, rfl⟩
  | cons c cells ih =>
    obtain ⟨off, v⟩ := c
    obtain ⟨l₁, m₁, e₁⟩ := w.nextSlot_moves
    have m₂ := w.nextSlot.memWrite_moves .unit off v
    obtain ⟨l₃, m₃, e₃, u₃⟩ := ih (w.nextSlot.memWrite .unit off v)
    refine ⟨l₁ ++ ([⟨.unit, .write, off, v⟩] ++ l₃), ?_, fun a ha => ?_, ?_⟩
    · have := m₁.trans (m₂.trans m₃)
      simp only [Nat.zero_add, Nat.add_comm 1] at this
      exact this
    · rcases List.mem_append.mp ha with h | h
      · exact .inr (EnvironmentDuring.now (e₁ a h))
      · rcases List.mem_append.mp h with h | h
        · rw [List.mem_singleton.mp h]; exact .inl ⟨rfl, rfl, List.mem_cons_self⟩
        · rcases e₃ a h with ⟨h1, h2, h3⟩ | h'
          · exact .inl ⟨h1, h2, List.mem_cons_of_mem _ h3⟩
          · exact .inr (EnvironmentDuring.later (m₁.trans m₂) h')
    · rw [unitAccesses_append, unitAccesses_append, unitAccesses_environment fun a ha => ?_]
      · simp [unitAccesses] at u₃ ⊢
        exact u₃
      · obtain ⟨_, _, h⟩ := e₁ a ha
        exact h.1

/-- The bytes read, when the environment leaves them alone: what the region holds, in whatever order. -/
theorem World.readBytes_values (offs : List Nat) (w : World) (hw : w.region.wf = true)
    (hq : ∀ o ∈ offs, w.QuietAt offs.length o) :
    (World.readBytes offs w).2 = offs.map fun o => (o, w.region.read o) := by
  induction offs generalizing w with
  | nil => rfl
  | cons off offs ih =>
    have hq' := fun o ho => World.nextSlot_quiet (hq o ho) hw
    have hr := (hq' off List.mem_cons_self).1
    have := ih (w.nextSlot.memRead .unit off) (World.nextSlot_wf hw)
      fun o ho => (hq' o (List.mem_cons_of_mem _ ho)).2
    simp only [World.readBytes, this, List.map_cons, hr, List.cons.injEq, true_and]
    exact List.map_congr_left fun o ho => by
      show (o, w.nextSlot.region.read o) = _
      rw [(hq' o (List.mem_cons_of_mem _ ho)).1]

/-- A byte that is not written, and that the environment leaves alone, reads as before. -/
theorem World.writeBytes_other (cells : List Host.Cell) (w : World) {x : Nat} (hw : w.region.wf = true)
    (hq : w.QuietAt cells.length x) (hx : ∀ c ∈ cells, c.1 ≠ x) :
    (World.writeBytes cells w).region.read x = w.region.read x := by
  induction cells generalizing w with
  | nil => rfl
  | cons c cells ih =>
    obtain ⟨off, v⟩ := c
    obtain ⟨h1, h2⟩ := World.nextSlot_quiet hq hw
    have hne : x ≠ off := fun e => hx _ List.mem_cons_self e.symm
    have hwr : (w.nextSlot.memWrite .unit off v).region.read x = w.nextSlot.region.read x := by
      show (Memory.write _ _ _).read x = _
      rw [Memory.read_write _ _ _ (World.nextSlot_wf hw), if_neg hne]
    have := ih (w.nextSlot.memWrite .unit off v) (Memory.wf_write _ _ (World.nextSlot_wf hw)) h2
      fun c hc => hx c (List.mem_cons_of_mem _ hc)
    simp only [World.writeBytes, this, hwr, h1]

/-- A byte that is written, and that the environment leaves alone, holds what was written. -/
theorem World.writeBytes_own (cells : List Host.Cell) (w : World) {x : Nat} {v : Byte} (hw : w.region.wf = true)
    (hq : w.QuietAt cells.length x) (hd : (cells.map Prod.fst).Nodup) (hx : (x, v) ∈ cells) :
    (World.writeBytes cells w).region.read x = v := by
  induction cells generalizing w with
  | nil => cases hx
  | cons c cells ih =>
    obtain ⟨off, u⟩ := c
    obtain ⟨-, h2⟩ := World.nextSlot_quiet hq hw
    have hwf := World.nextSlot_wf hw
    obtain ⟨hn, hd'⟩ := List.nodup_cons.mp hd
    simp only [World.writeBytes]
    rcases List.mem_cons.mp hx with e | e
    · obtain ⟨rfl, rfl⟩ := Prod.mk.inj e
      have hwf' : (w.nextSlot.memWrite .unit x v).region.wf = true := Memory.wf_write _ _ hwf
      rw [World.writeBytes_other cells _ hwf' h2 fun c hc e => hn (List.mem_map.mpr ⟨c, hc, e⟩)]
      show (Memory.write _ _ _).read _ = _
      rw [Memory.read_write _ _ _ hwf, if_pos rfl]
    · exact ih _ (Memory.wf_write _ _ hwf) h2 hd' e

/-! ### The pixel -/

theorem byteAt_map {offs : List Nat} {f : Nat → Byte} {x : Nat} (h : x ∈ offs) :
    byteAt (offs.map fun o => (o, f o)) x = f x := by
  induction offs with
  | nil => cases h
  | cons o offs ih =>
    show (if x = o then f o else Memory.read _ x) = f x
    split
    · subst x; rfl
    · exact ih ((List.mem_cons.mp h).resolve_left ‹_›)

theorem assemble_congr {b b' : Nat → Byte} {n : Nat} (h : ∀ i < n, b i = b' i) : assemble b n = assemble b' n := by
  unfold assemble
  have : ∀ (l : List Nat) (p : Word), (∀ i ∈ l, b i = b' i) →
      l.foldl (fun p i => p ||| ((b i).setWidth 32 <<< (8 * i))) p =
        l.foldl (fun p i => p ||| ((b' i).setWidth 32 <<< (8 * i))) p := by
    intro l
    induction l with
    | nil => intros; rfl
    | cons i l ih =>
      intro p hl
      simp only [List.foldl_cons, hl i List.mem_cons_self]
      exact ih _ fun j hj => hl j (List.mem_cons_of_mem _ hj)
  exact this _ _ fun i hi => h i (List.mem_range.mp hi)

theorem mem_pixelOffsets {a n x : Nat} : x ∈ pixelOffsets a n ↔ a ≤ x ∧ x < a + n := by
  simp only [pixelOffsets, List.mem_map, List.mem_range]
  constructor
  · rintro ⟨i, hi, rfl⟩; omega
  · intro h; exact ⟨x - a, by omega, by omega⟩

theorem pixelOffsets_length (a n : Nat) : (pixelOffsets a n).length = n := by simp [pixelOffsets]

theorem pixelCells_length (a n : Nat) (p : Word) : (pixelCells a n p).length = n := by simp [pixelCells]

theorem pixelCells_offsets (a n : Nat) (p : Word) : (pixelCells a n p).map Prod.fst = pixelOffsets a n := by
  simp [pixelCells, pixelOffsets]

theorem pixelOffsets_nodup (a n : Nat) : (pixelOffsets a n).Nodup :=
  List.Nodup.map (fun _ _ h => Nat.add_left_cancel h) List.nodup_range

/-- Everything a pixel read can do: it happens exactly when the region holds the pixel. -/
theorem World.readPixel_some {w w' : World} {a n : Nat} {p : Word} (h : w.readPixel a n = some (w', p)) :
    w.admitsPixel a n ∧ ∃ l, World.Moves w w' l n ∧
      (∀ x ∈ l, (x.agent = .unit ∧ x.kind = .read ∧ x.off ∈ pixelOffsets a n) ∨ EnvironmentDuring w n x) ∧
      (unitAccesses l).map (fun x => (x.kind, x.off)) =
        (arrange w.places (pixelOffsets a n)).map (fun o => (.read, o)) := by
  unfold World.readPixel at h
  split at h
  · refine ⟨‹_›, ?_⟩
    obtain ⟨l, m, e, u⟩ := World.readBytes_moves (arrange w.places (pixelOffsets a n)) w
    have hp := arrange_perm w.places (pixelOffsets a n)
    rw [hp.length_eq, pixelOffsets_length] at m e
    simp only [Option.some.injEq, Prod.mk.injEq] at h
    exact ⟨l, h.1 ▸ m, fun x hx => (e x hx).imp (fun ⟨h1, h2, h3⟩ => ⟨h1, h2, hp.mem_iff.mp h3⟩) id, u⟩
  · cases h

theorem World.readPixel_none {w : World} {a n : Nat} : w.readPixel a n = none ↔ ¬ w.admitsPixel a n := by
  unfold World.readPixel
  split <;> simp_all

/-- The packed pixel read, when the environment leaves its bytes alone (44_pixel_access.md R125). -/
theorem World.readPixel_value {w w' : World} {a n : Nat} {p : Word} (h : w.readPixel a n = some (w', p))
    (hw : w.region.wf = true) (hq : w.PixelQuiet n a n) : p = assemble (fun i => w.region.read (a + i)) n := by
  unfold World.readPixel at h
  split at h
  · simp only [Option.some.injEq, Prod.mk.injEq] at h
    rw [← h.2]
    have hp := arrange_perm w.places (pixelOffsets a n)
    rw [World.readBytes_values _ w hw fun o ho => ?_]
    · refine assemble_congr fun i hi => ?_
      exact byteAt_map (hp.mem_iff.mpr (mem_pixelOffsets.mpr (by omega)))
    · rw [hp.length_eq, pixelOffsets_length]
      obtain ⟨h1, h2⟩ := mem_pixelOffsets.mp (hp.mem_iff.mp ho)
      have := hq (o - a) (by omega)
      rwa [Nat.add_sub_cancel' h1] at this
  · cases h

/-- Everything a pixel write can do: it happens exactly when the region holds the pixel. -/
theorem World.writePixel_some {w w' : World} {a n : Nat} {p : Word} (h : w.writePixel a n p = some w') :
    w.admitsPixel a n ∧ ∃ l, World.Moves w w' l n ∧
      (∀ x ∈ l, (x.agent = .unit ∧ x.kind = .write ∧ x.off ∈ pixelOffsets a n) ∨ EnvironmentDuring w n x) ∧
      (unitAccesses l).map (fun x => (x.kind, x.off, x.val)) =
        (arrange w.places (pixelCells a n p)).map (fun c => (.write, c.1, c.2)) := by
  unfold World.writePixel at h
  split at h
  · refine ⟨‹_›, ?_⟩
    obtain ⟨l, m, e, u⟩ := World.writeBytes_moves (arrange w.places (pixelCells a n p)) w
    have hp := arrange_perm w.places (pixelCells a n p)
    rw [hp.length_eq, pixelCells_length] at m e
    simp only [Option.some.injEq] at h
    refine ⟨l, h ▸ m, fun x hx => (e x hx).imp (fun ⟨h1, h2, h3⟩ => ⟨h1, h2, ?_⟩) id, u⟩
    rw [← pixelCells_offsets a n p]
    exact List.mem_map_of_mem (f := Prod.fst) (hp.mem_iff.mp h3)
  · cases h

theorem World.writePixel_none {w : World} {a n : Nat} {p : Word} : w.writePixel a n p = none ↔ ¬ w.admitsPixel a n := by
  unfold World.writePixel
  split <;> simp_all

/-- What a pixel write leaves in a byte that the environment leaves alone (20_memory.md R42, R46). -/
theorem World.writePixel_read {w w' : World} {a n x : Nat} {p : Word} (h : w.writePixel a n p = some w')
    (hw : w.region.wf = true) (hq : w.QuietAt n x) :
    w'.region.read x = if a ≤ x ∧ x < a + n then disassemble p (x - a) else w.region.read x := by
  unfold World.writePixel at h
  split at h
  · simp only [Option.some.injEq] at h
    subst w'
    have hp := arrange_perm w.places (pixelCells a n p)
    have hl : (arrange w.places (pixelCells a n p)).length = n := by rw [hp.length_eq, pixelCells_length]
    split
    · rename_i hx
      refine World.writeBytes_own _ w hw (hl.symm ▸ hq) ?_ (hp.mem_iff.mpr ?_)
      · rw [(hp.map Prod.fst).nodup_iff, pixelCells_offsets]
        exact pixelOffsets_nodup a n
      · exact List.mem_map.mpr ⟨x - a, List.mem_range.mpr (by omega), by rw [Nat.add_sub_cancel' hx.1]⟩
    · rename_i hx
      refine World.writeBytes_other _ w hw (hl.symm ▸ hq) fun c hc e => hx ?_
      have := List.mem_map_of_mem (f := Prod.fst) (hp.mem_iff.mp hc)
      rw [pixelCells_offsets, mem_pixelOffsets, e] at this
      exact this
  · cases h

/-- A byte that the environment leaves alone keeps its value through the byte reads. -/
theorem World.readBytes_keep (offs : List Nat) (w : World) {x : Nat} (hw : w.region.wf = true)
    (hq : w.QuietAt offs.length x) : (World.readBytes offs w).1.region.read x = w.region.read x := by
  induction offs generalizing w with
  | nil => rfl
  | cons off offs ih =>
    obtain ⟨h1, h2⟩ := World.nextSlot_quiet hq hw
    have := ih (w.nextSlot.memRead .unit off) (World.nextSlot_wf hw) h2
    simp only [World.readBytes, this]
    exact h1

/-- A byte that the environment leaves alone keeps its value through a pixel read. -/
theorem World.readPixel_keep {w w' : World} {a n x : Nat} {p : Word} (h : w.readPixel a n = some (w', p))
    (hw : w.region.wf = true) (hq : w.QuietAt n x) : w'.region.read x = w.region.read x := by
  unfold World.readPixel at h
  split at h
  · simp only [Option.some.injEq, Prod.mk.injEq] at h
    rw [← h.1]
    have hl : (arrange w.places (pixelOffsets a n)).length = n := by
      rw [(arrange_perm w.places (pixelOffsets a n)).length_eq, pixelOffsets_length]
    exact World.readBytes_keep _ w hw (hl.symm ▸ hq)
  · cases h

/-! ### Schedules written out -/

/-- Byte reads one list after the other. -/
theorem World.readBytes_append (offs₁ offs₂ : List Nat) (w : World) :
    World.readBytes (offs₁ ++ offs₂) w =
      ((World.readBytes offs₂ (World.readBytes offs₁ w).1).1,
        (World.readBytes offs₁ w).2 ++ (World.readBytes offs₂ (World.readBytes offs₁ w).1).2) := by
  induction offs₁ generalizing w with
  | nil => rfl
  | cons off offs ih => simp only [List.cons_append, World.readBytes, ih]

/-- Byte reads whose slots give the environment nothing to do: only the reads are seen, and the region stays. -/
theorem World.readBytes_alone (offs : List Nat) (w : World) (h : ∀ slot ∈ w.schedule.take offs.length, slot.acts = []) :
    World.readBytes offs w =
      ({ w with
          schedule := w.schedule.drop offs.length
          traffic := w.traffic ++
            offs.map fun o => { agent := .unit, kind := .read, off := o, val := w.region.read o } },
        offs.map fun o => (o, w.region.read o)) := by
  induction offs generalizing w with
  | nil => simp [World.readBytes]
  | cons off offs ih =>
    have hs : w.nextSlot = { w with schedule := w.schedule.drop 1 } := by
      unfold World.nextSlot
      split
      · rename_i hc
        rw [hc, List.drop_nil, ← hc]
      · rename_i slot rest hc
        simp [hc, h slot (by simp [hc])]
    have := ih (w.nextSlot.memRead .unit off) fun slot hm => h slot (by
      rw [hs] at hm
      rw [← List.take_append_drop 1 (w.schedule.take _), List.drop_take]
      exact List.mem_append_right _ hm)
    simp only [World.readBytes, this]
    simp [hs, World.memRead, World.observe]

/-- The environment's writes at admitted offsets, when it may write: all are seen, in their order. -/
theorem World.environmentWrites (offs : List Nat) (f : Nat → Byte) (w : World) (hm : w.envMayWrite = true)
    (ha : ∀ o ∈ offs, w.admits o) :
    ((offs.map fun o => EnvAction.write o (f o)).foldl World.environmentAct w) =
      { w with
        region := offs.foldl (fun m o => m.write o (f o)) w.region
        traffic := w.traffic ++
          offs.map fun o => { agent := .environment, kind := .write, off := o, val := f o } } := by
  induction offs generalizing w with
  | nil => simp
  | cons off offs ih =>
    have h0 : w.environmentAct (.write off (f off)) = w.memWrite .environment off (f off) := by
      simp only [World.environmentAct, hm, ha off List.mem_cons_self, and_self, if_true]
    simp only [List.map_cons, List.foldl_cons, h0]
    refine (ih (w.memWrite .environment off (f off)) hm fun o ho => ha o (List.mem_cons_of_mem _ ho)).trans ?_
    simp [World.memWrite, World.observe]

/-- A byte after a list of writes that give each offset its value. -/
theorem Memory.read_writes (offs : List Nat) (f : Nat → Byte) {m : Memory} (hw : m.wf = true) (x : Nat) :
    (offs.foldl (fun m o => m.write o (f o)) m).read x = if x ∈ offs then f x else m.read x := by
  induction offs generalizing m with
  | nil => simp
  | cons off offs ih =>
    simp only [List.foldl_cons]
    rw [ih (Memory.wf_write _ _ hw), Memory.read_write _ _ _ hw]
    by_cases h1 : x ∈ offs <;> by_cases h2 : x = off <;> simp_all

end Sys2Proof.Machine
end

