-- ==== Sys2Proof/Laws/Exec.lean ====
section
/-! SUPPORT. What the shared operations of the meanings can do, each said once: accepting a WR, the register space, the
encodings' fields, and the case splits of the effects. -/

namespace Sys2Proof.Machine

/-! ### Accepting a WR -/

theorem acceptWrite_running (act : State → State) (s : State) (h : s.status.fault = false) :
    acceptWrite act s = .next (act (s.answer none)) := by
  simp [acceptWrite, h]

theorem acceptWrite_halted (act : State → State) (s : State) (h : s.status.fault = true) :
    acceptWrite act s = .next (s.answer none) := by
  simp [acceptWrite, h]

/-- The only next state of a WR: the same on a halted unit, its effect on any other. -/
theorem acceptWrite_next {act : State → State} {s t : State} (h : acceptWrite act s = .next t) :
    (s.status.fault = true ∧ t = s.answer none) ∨ (s.status.fault = false ∧ t = act (s.answer none)) := by
  cases hf : s.status.fault
  · rw [acceptWrite_running act s hf] at h; cases h; exact .inr ⟨rfl, rfl⟩
  · rw [acceptWrite_halted act s hf] at h; cases h; exact .inl ⟨rfl, rfl⟩

/-! ### The register space -/

theorem regOfNumber_regNumber (r : Reg) : regOfNumber (regNumber r) = some r := by cases r <;> rfl

theorem regNumber_of_regOfNumber {addr : RegNumber} {r : Reg} (h : regOfNumber addr = some r) : regNumber r = addr := by
  have := List.find?_some h
  simpa using this

theorem regNumber_injective {r r' : Reg} (h : regNumber r = regNumber r') : r = r' := by
  have h1 := regOfNumber_regNumber r
  rw [h, regOfNumber_regNumber r'] at h1
  exact (Option.some.inj h1).symm

/-! ### The case splits of the effects -/

/-- Everything FMTSET can do on a unit that is not halted. -/
theorem fmtsetEffect_cases (s : State) :
    (∃ e, validate s.desc = .error e ∧ fmtsetEffect s = raiseUnsupportedFormat e (discardFormat s)) ∨
    (∃ f, validate s.desc = .ok f ∧ fmtsetEffect s = latchFormat f (discardFormat s)) := by
  unfold fmtsetEffect
  cases h : validate s.desc with
  | error e => exact .inl ⟨e, rfl, rfl⟩
  | ok f => exact .inr ⟨f, rfl, rfl⟩

/-- A format that `validate` makes is legal: its lengths are those of the descriptor and at most 16, and its bytes per
pixel are 1 to 4 (41_configuration.md R91). -/
theorem validate_ok {d : Descriptor} {f : PixelFormat} (h : validate d = .ok f) :
    (∀ ch, (f.channel ch).length.toNat = (d.channel ch).length.toNat ∧ (d.channel ch).length.toNat ≤ 16 ∧
      (f.channel ch).offset = (d.channel ch).offset ∧ (d.channel ch).msbr = false) ∧
    f.byteCount * 8 = d.bpp.toNat ∧ 1 ≤ f.byteCount ∧ f.byteCount ≤ 4 := by
  unfold validate at h
  split at h
  · cases h
  · split at h
    · cases h
    · split at h
      · cases h
      · rename_i h1 h2 h3
        simp only [Except.ok.injEq] at h
        subst h
        simp only [not_or, Bool.not_eq_true] at h1 h2 h3
        obtain ⟨h1r, h1g, h1b, h1a⟩ := h1
        obtain ⟨h2r, h2g, h2b, h2a⟩ := h2
        obtain ⟨h3z, h3m, h3l⟩ := h3
        refine ⟨fun ch => ?_, ?_, ?_, ?_⟩
        · cases ch <;>
            simp only [PixelFormat.channel, Descriptor.channel, DescChannel.spec, BitVec.toNat_setWidth] <;>
            refine ⟨Nat.mod_eq_of_lt (by omega), by omega, trivial, by assumption⟩
        all_goals
          simp only [PixelFormat.byteCount, BitVec.toNat_ofNat]
          omega

/-- Everything a command that needs a PixelFormat can do on a unit that is not halted. -/
theorem needsFormat_cases {s t : State} {act : State}
    (h : (if s.status.fmtValid = false then takeFault .noFormat s else act) = t) :
    (s.status.fmtValid = false ∧ t = takeFault .noFormat s) ∨ (s.status.fmtValid = true ∧ t = act) := by
  split at h
  · exact .inl ⟨‹_›, h.symm⟩
  · exact .inr ⟨by simp_all, h.symm⟩

/-- Everything GETPIXEL can do on a unit that is not halted. -/
theorem getpixelEffect_cases (s : State) :
    (s.status.bufValid = false ∧ getpixelEffect s = takeFault .noBuffer s) ∨
    (s.status.bufValid = true ∧ ¬ s.inBounds ∧ getpixelEffect s = s.setColor (decodePacked 0 s.fmt)) ∨
    (s.status.bufValid = true ∧ s.inBounds ∧ ¬ s.world.admitsPixel s.pixelOffset s.fmt.byteCount ∧
      getpixelEffect s = takeFault .regionFault s) ∨
    (s.status.bufValid = true ∧ s.inBounds ∧ ∃ w p, s.world.readPixel s.pixelOffset s.fmt.byteCount = some (w, p) ∧
      getpixelEffect s = (s.setWorld w).setColor (decodePacked p s.fmt)) := by
  unfold getpixelEffect
  split
  · exact .inl ⟨‹_›, rfl⟩
  · have hb : s.status.bufValid = true := by simp_all
    split
    · exact .inr (.inl ⟨hb, ‹_›, rfl⟩)
    · have hi : s.inBounds := by rename_i h; exact not_not.mp h
      cases hr : s.world.readPixel s.pixelOffset s.fmt.byteCount with
      | none => exact .inr (.inr (.inl ⟨hb, hi, World.readPixel_none.mp hr, rfl⟩))
      | some r => exact .inr (.inr (.inr ⟨hb, hi, r.1, r.2, rfl, rfl⟩))

/-- Everything SETPIXEL can do on a unit that is not halted. -/
theorem setpixelEffect_cases (s : State) :
    (s.status.bufValid = false ∧ setpixelEffect s = takeFault .noBuffer s) ∨
    (s.status.bufValid = true ∧ ¬ s.inBounds ∧ setpixelEffect s = s) ∨
    (s.status.bufValid = true ∧ s.inBounds ∧ ¬ s.world.admitsPixel s.pixelOffset s.fmt.byteCount ∧
      setpixelEffect s = takeFault .regionFault s) ∨
    (s.status.bufValid = true ∧ s.inBounds ∧
      ∃ w, s.world.writePixel s.pixelOffset s.fmt.byteCount (encodeColor s.opr.color s.fmt) = some w ∧
        setpixelEffect s = s.setWorld w) := by
  unfold setpixelEffect
  split
  · exact .inl ⟨‹_›, rfl⟩
  · have hb : s.status.bufValid = true := by simp_all
    split
    · exact .inr (.inl ⟨hb, ‹_›, rfl⟩)
    · have hi : s.inBounds := by rename_i h; exact not_not.mp h
      cases hr : s.world.writePixel s.pixelOffset s.fmt.byteCount (encodeColor s.opr.color s.fmt) with
      | none => exact .inr (.inr (.inl ⟨hb, hi, World.writePixel_none.mp hr, rfl⟩))
      | some w => exact .inr (.inr (.inr ⟨hb, hi, w, rfl, rfl⟩))

/-- Everything a WR can do on a unit that is not halted. -/
theorem wrEffect_cases (addr : RegNumber) (w : Word) (s : State) :
    wrEffect addr w s = takeFault .badAccess s ∨ wrEffect addr w s = takeFault .illegalCommand s ∨
    (∃ r, regNumber r = addr ∧ regRights r = .readWrite ∧ wrEffect addr w s = writeRegister s w r) ∨
    (∃ c, addr = 0x1F ∧ decodeCommand w = .ok c ∧ wrEffect addr w s = runCommand c s) := by
  unfold wrEffect
  cases hr : regOfNumber addr with
  | none => exact .inl rfl
  | some r =>
    have hn := regNumber_of_regOfNumber hr
    cases hg : regRights r with
    | readWrite => exact .inr (.inr (.inl ⟨r, hn, hg, by simp only [hg]⟩))
    | readOnly => exact .inl (by simp only [hg])
    | writeOnly =>
      have hc : r = .cmd := by cases r <;> first | rfl | exact absurd hg (by decide)
      subst hc
      simp only [commandEffect]
      cases hd : decodeCommand w with
      | error e => exact .inr (.inl rfl)
      | ok c => exact .inr (.inr (.inr ⟨c, hn.symm, rfl, rfl⟩))

/-- Everything a RD can do. -/
theorem rdEffect_cases (addr : RegNumber) (s : State) :
    (∃ r, regNumber r = addr ∧ regRights r ≠ .writeOnly ∧ rdEffect addr s = s.answer (some (readRegister s r))) ∨
    ((∀ r, regNumber r = addr → r = .cmd) ∧ rdEffect addr s = (takeFault .badAccess s).answer (some 0)) := by
  unfold rdEffect readableReg
  cases hr : regOfNumber addr with
  | none =>
    refine .inr ⟨fun r hn => ?_, rfl⟩
    rw [← hn, regOfNumber_regNumber] at hr
    cases hr
  | some r =>
    have hn := regNumber_of_regOfNumber hr
    by_cases hg : regRights r = .writeOnly
    · refine .inr ⟨fun r' hn' => ?_, by simp [hg]⟩
      rw [regNumber_injective (hn'.trans hn.symm)]
      cases r <;> first | rfl | exact absurd hg (by decide)
    · exact .inl ⟨r, hn, hg, by simp [hg]⟩

end Sys2Proof.Machine
end

