-- ==== Sys2Proof/Laws/PerInstr.lean ====
section
/-! SUPPORT. Statements for all instructions, one lemma for each constructor of `Instr`: the transaction of an instruction
has the fixed bits of its row of spec/opcode_table.json (30_encoding.md R60, R64). -/

namespace Sys2Proof.Laws.EncodeRow

/-- The fixed bits of a row: for the transactions WE alone, for the commands WE, ADDR and the mask of the table. -/
def rowMask : Instr → Transaction
  | .wr _ _ => 0x10000000000
  | .rd _ => 0x10000000000
  | .fmtset => 0x1FFFFFFFFFF
  | .bufset => 0x1FFFFFFFFFF
  | .pack _ => 0x1FFFFFFFCFF
  | .unpack _ => 0x1FFFFFFFCFF
  | .encode => 0x1FFFFFFFFFF
  | .decode => 0x1FFFFFFFFFF
  | .getpixel => 0x1FFFFFFFFFF
  | .setpixel => 0x1FFFFFFFFFF

/-- The values of the fixed bits of a row. -/
def rowMatch : Instr → Transaction
  | .wr _ _ => 0x10000000000
  | .rd _ => 0x00000000000
  | .fmtset => 0x11F00000001
  | .bufset => 0x11F00000002
  | .pack _ => 0x11F00000010
  | .unpack _ => 0x11F00000011
  | .encode => 0x11F00000020
  | .decode => 0x11F00000021
  | .getpixel => 0x11F00000030
  | .setpixel => 0x11F00000031

/-- The transaction of an instruction has the fixed bits of its row. -/
def Statement (i : Instr) : Prop := Sys2Proof.encode i &&& rowMask i = rowMatch i

/-- A word that is masked to bit 40 is that bit. -/
theorem mask_we (t : Transaction) :
    t &&& 0x10000000000 = if t.getLsbD 40 = true then 0x10000000000 else 0 := by
  apply BitVec.eq_of_getLsbD_eq
  intro i hi
  rw [BitVec.getLsbD_and]
  by_cases h : i = 40
  · subst h
    split <;> simp_all
  · have : (0x10000000000 : Transaction).getLsbD i = false := by
      revert h hi; revert i; decide
    rw [this]
    split
    · simpa using this.symm
    · simp

theorem wr (addr : RegNumber) (wdata : Word) : Statement (.wr addr wdata) := by
  show wrTransaction addr wdata &&& 0x10000000000 = 0x10000000000
  rw [mask_we, if_pos (wrTransaction_we addr wdata)]

theorem rd (addr : RegNumber) : Statement (.rd addr) := by
  show rdTransaction addr &&& 0x10000000000 = 0
  rw [mask_we, if_neg]
  simp only [rdTransaction, BitVec.getLsbD_or, fieldAt_getLsbD]
  simp

theorem fmtset : Statement .fmtset := by unfold Statement; decide

theorem bufset : Statement .bufset := by unfold Statement; decide

theorem pack (ch : Channel) : Statement (.pack ch) := by unfold Statement; cases ch <;> decide

theorem unpack (ch : Channel) : Statement (.unpack ch) := by unfold Statement; cases ch <;> decide

theorem encode : Statement .encode := by unfold Statement; decide

theorem decode : Statement .decode := by unfold Statement; decide

theorem getpixel : Statement .getpixel := by unfold Statement; decide

theorem setpixel : Statement .setpixel := by unfold Statement; decide

end Sys2Proof.Laws.EncodeRow
end

