-- ==== Sys2Proof/Tests/Slice0.lean ====
section
/-! SUPPORT. The model's own tests: what is not well-formed, the words of 95_test_vectors.md and 30_encoding.md, at most
two executions for each instruction with the results 95_test_vectors.md gives, and for every obligation with hypotheses a
state and operands that meet them together (each clause at a boundary of its range). -/

namespace Sys2Proof.Tests

open Sys2Proof.Machine

/-! ### Well-formedness: the one check, and what it accepts -/

theorem test_wf_refuses_wr_of_fmtset : Instr.wellFormed (.wr 0x1F 0x00000001) = false := by decide
theorem test_wf_refuses_wr_of_unpack_alpha : Instr.wellFormed (.wr 0x1F 0x00000311) = false := by decide
theorem test_wf_refuses_every_command_word : (commandWords.all fun w => !Instr.wellFormed (.wr 0x1F w)) = true := by decide
theorem test_wf_accepts_illegal_word : Instr.wellFormed (.wr 0x1F 0x00000120) = true := by decide
theorem test_wf_accepts_other_register : Instr.wellFormed (.wr 0x1E 0x00000001) = true := by decide

/-! ### Decoding: the words of 30_encoding.md R60, R64 and of 95_test_vectors.md, for every constructor -/

theorem test_decode_wr : decode 0x10100000506 = .wr 0x01 0x00000506 := by decide
theorem test_decode_wr_unmapped : decode 0x11800000000 = .wr 0x18 0 := by decide
theorem test_decode_rd : decode 0x01E00000000 = .rd 0x1E := by decide
theorem test_decode_rd_ignores_wdata : decode 0x01F00000031 = .rd 0x1F := by decide
theorem test_decode_fmtset : decode 0x11F00000001 = .fmtset := by decide
theorem test_decode_bufset : decode 0x11F00000002 = .bufset := by decide
theorem test_decode_pack :
    decode 0x11F00000010 = .pack .red ∧ decode 0x11F00000110 = .pack .green ∧ decode 0x11F00000210 = .pack .blue ∧
      decode 0x11F00000310 = .pack .alpha := by decide
theorem test_decode_unpack :
    decode 0x11F00000011 = .unpack .red ∧ decode 0x11F00000111 = .unpack .green ∧ decode 0x11F00000211 = .unpack .blue ∧
      decode 0x11F00000311 = .unpack .alpha := by decide
theorem test_decode_encode : decode 0x11F00000020 = .encode := by decide
theorem test_decode_decode : decode 0x11F00000021 = .decode := by decide
theorem test_decode_getpixel : decode 0x11F00000030 = .getpixel := by decide
theorem test_decode_setpixel : decode 0x11F00000031 = .setpixel := by decide

/-- V53: the words that spell no command stay a WR of CMD. -/
theorem test_decode_illegal_words :
    ([0x00000000, 0x00000120, 0x00000410, 0x00000003, 0x00000012, 0x00000131, 0x00000301, 0xFFFFFFFF].all
      fun w : Word => decide (decode (wrTransaction 0x1F w) = .wr 0x1F w)) = true := by decide

theorem test_table_word_command : decodeTableWord 32 0x311 = some (.unpack .alpha) := by decide
theorem test_table_word_bus : decodeTableWord 48 0x10100000506 = some (.wr 0x01 0x506) := by decide
theorem test_table_word_illegal : decodeTableWord 32 0x120 = none := by decide
theorem test_number_too_wide : decodeNumber (2 ^ 41) = .error .notATransaction := by rfl

/-! ### States -/

/-- The outside with a region of some bytes, nothing to come, and an environment that may write or not. -/
def outside (size : Fin (2 ^ 64)) (m : Memory) (mayWrite : Bool) : World :=
  { region := m, regionSize := size, envMayWrite := mayWrite, script := [], schedule := [], response := none, traffic := [] }

/-- The unit after reset beside a region of 16 bytes of 0x00. -/
def fresh : State := { State.reset with world := outside 16 [] false }

/-- The RGB565 row of the format table of 95_test_vectors.md. -/
def rgb565 : PixelFormat := { red := ⟨5, 11⟩, green := ⟨6, 5⟩, blue := ⟨5, 0⟩, alpha := ⟨0, 0⟩, bytesPerPixel := 2 }

/-- The descriptor of that row, with the geometry of V39. -/
def desc565 : Descriptor :=
  { red := ⟨5, 11, false⟩, green := ⟨6, 5, false⟩, blue := ⟨5, 0, false⟩, alpha := ⟨0, 0, false⟩
    bpp := 16, pitch := 8, xres := 3, yres := 2 }

/-- The descriptor is written. -/
def described : State := { fresh with desc := desc565 }

/-- V30: a format, no buffer; the colour of P1. -/
def formatted : State :=
  { described with
    fmt := rgb565
    status := { Status.zero with fmtValid := true }
    opr := { OperandRegs.zero with x := 1, y := 1, color := ⟨0x1234, 0x5678, 0x9ABC, 0⟩, pix := 0x12B3, v16 := 0x5678 } }

/-- V39: a format and a buffer; X = 1, Y = 1, whose bytes are those at 10 and 11. -/
def drawing : State :=
  { formatted with buf := ⟨8, 3, 2⟩, status := { Status.zero with fmtValid := true, bufValid := true } }

/-- The environment may write, and writes bytes of other pixels between the accesses; the bytes go in falling order. -/
def busy : State :=
  { drawing with world := { outside 16 [(10, 0xB3), (11, 0x12)] true with
      schedule := [⟨1, [.write 0 0x77, .read 10]⟩, ⟨0, [.write 15 0x01]⟩, ⟨1, []⟩, ⟨0, [.write 9 0x02]⟩] } }

/-- V58: the region ends in the middle of the pixel. -/
def straddling : State := { drawing with world := outside 11 [(10, 0x55)] false }

/-- The unit after a fault NoBuffer. -/
def halted : State := { drawing with status := { drawing.status with fault := true, faultCode := 4 } }

/-- The column to the right of the last one. -/
def outOfBounds : State := drawing.at 3 1

/-- What the next state holds. -/
def look {α : Type} (f : State → α) : Host.Outcome State Fault Refusal → Option α
  | .next t => some (f t)
  | .fault _ => none
  | .refused _ => none

/-! ### Executions -/

/-- V3. -/
theorem test_wr_reserved_bits : look (fun t => readRegister t .descRed) (exec (.wr 0x00 0xFFFFFFFF) fresh) = some 0x00011FFF := by
  decide
/-- V54. -/
theorem test_wr_read_only : look (fun t => (readRegister t .status, readRegister t .fmtRed)) (exec (.wr 0x08 5) fresh) =
    some (0x204, 0) := by decide
/-- V4. -/
theorem test_rd_status : look (fun t => (t.world.response, t.status)) (exec (.rd 0x1E) fresh) = some (some 0, .zero) := by
  decide
/-- V55. -/
theorem test_rd_cmd : look (fun t => (t.world.response, readRegister t .status)) (exec (.rd 0x1F) fresh) =
    some (some 0, 0x204) := by decide
/-- V30. -/
theorem test_fmtset_accepts : look (fun t => (t.fmt, readRegister t .status)) (exec .fmtset described) =
    some (rgb565, 1) := by decide
/-- V37: LengthTooLarge before MsbRight before BadPixelWidth. -/
theorem test_fmtset_priority :
    look (fun t => readRegister t .status)
      (exec .fmtset { fresh with desc := { desc565 with red := ⟨17, 0, false⟩, green := ⟨6, 5, true⟩, bpp := 17 } }) =
      some 0x10 := by decide
/-- V39. -/
theorem test_bufset : look (fun t => (t.buf, readRegister t .status)) (exec .bufset formatted) = some (⟨8, 3, 2⟩, 3) := by
  decide
/-- V60: the error of the format stays beside the fault. -/
theorem test_bufset_after_rejection :
    look (fun t => readRegister t .status) (exec .bufset { fresh with status := { Status.zero with fmtErr := 3 } }) =
      some 0x334 := by decide
/-- V6. -/
theorem test_pack : look (fun t => t.opr.pix) (exec (.pack .green) formatted) = some 0x2A0 := by decide
/-- V9. -/
theorem test_pack_past_the_container : pack ⟨16, 31⟩ 0xFFFF = 0x80000000 ∧ pack ⟨16, 31⟩ 0xFFFE = 0 := by decide
/-- The value `unpack((6, 5), 0x000012B3)` of section 2.3. -/
theorem test_unpack : look (fun t => t.opr.v16) (exec (.unpack .green) formatted) = some 0x5400 := by decide
/-- V14 and P2 step 27: a channel of length 0. -/
theorem test_unpack_no_channel : look (fun t => t.opr.v16) (exec (.unpack .alpha) formatted) = some 0xFFFF := by decide
/-- V20. -/
theorem test_encode : look (fun t => t.opr.pix) (exec .encode { formatted with opr := { formatted.opr with pix := 0xFFFFFFFF } }) =
    some 0x12B3 := by decide
/-- V28: overlapping channels are ORed. -/
theorem test_encode_overlap : encodeColor ⟨0xA500, 0x3C00, 0, 0⟩ ⟨⟨8, 4⟩, ⟨8, 0⟩, ⟨0, 0⟩, ⟨0, 0⟩, 2⟩ = 0xA7C := by decide
/-- V21. -/
theorem test_decode_command : look (fun t => t.opr.color) (exec .decode formatted) =
    some ⟨0x1000, 0x5400, 0x9800, 0xFFFF⟩ := by decide
/-- V23. -/
theorem test_decode_alpha : decodePacked 0xDE12569A ⟨⟨8, 16⟩, ⟨8, 8⟩, ⟨8, 0⟩, ⟨8, 24⟩, 4⟩ =
    ⟨0x1200, 0x5600, 0x9A00, 0xDE00⟩ := by decide
/-- P1 step 18: little-endian. -/
theorem test_setpixel : look (fun t => t.world.region) (exec .setpixel drawing) = some [(10, 0xB3), (11, 0x12)] := by decide
/-- V58. -/
theorem test_setpixel_region_fault : look (fun t => (readRegister t .status, t.byte 10)) (exec .setpixel straddling) =
    some (0x507, 0x55) := by decide
/-- P1 step 19, with the bytes read in falling order and the environment at work on other pixels. -/
theorem test_getpixel : look (fun t => t.opr.color) (exec .getpixel busy) = some ⟨0x1000, 0x5400, 0x9800, 0xFFFF⟩ := by
  decide
/-- V57. -/
theorem test_getpixel_no_buffer : look (fun t => (readRegister t .status, t.opr.color)) (exec .getpixel formatted) =
    some (0x405, ⟨0x1234, 0x5678, 0x9ABC, 0⟩) := by decide

/-- 30_encoding.md R70: SETDESC G, 6, 5, 0 is the WR of V1. -/
theorem test_expand_setdesc : (expand (.setdesc .green 6 5 false)).map encode = [0x10100000506] := by decide

/-- A step runs the word that `withFetchWord` places. -/
theorem test_step_of_fetch_word : look (fun t => readRegister t .status) (step (fresh.withFetchWord 32 0x20)) = some 0x304 := by
  decide

/-! ### Every hypothesis can be met -/

theorem witness_DecodeEncode :
    Instr.wellFormed (.pack .alpha) = true ∧ Instr.wellFormed (.wr 0x1F 0x120) = true ∧
      Instr.wellFormed (.wr 0xFF 0xFFFFFFFF) = true := by decide

theorem witness_EncodeDecode :
    (0x11F00000031 : Transaction).getLsbD 40 = true ∧ (0x01FFFFFFFFF : Transaction).getLsbD 40 = false := by decide

theorem witness_LegalCommandWords : (0x00000311 : Word) ∈ commandWords ∧ (0x00000312 : Word) ∉ commandWords := by decide

theorem witness_StepRunsDecoded :
    Instr.wellFormed .getpixel = true ∧
      (busy.pushTransaction (encode .getpixel)).world.script = .transaction (encode .getpixel) :: [] := ⟨rfl, rfl⟩

/-- A state whose next outside event is the one given. -/
def expecting (e : Event) : State := { busy with world := { busy.world with script := [e] } }

theorem witness_StepReset : (expecting .reset).world.script = .reset :: [] := rfl

/-- A write of the last byte, one just outside, and a read. -/
theorem witness_StepEnvironment :
    (expecting (.environment (.write 15 7))).world.script = .environment (.write 15 7) :: [] ∧
      (expecting (.environment (.write 16 7))).world.script = .environment (.write 16 7) :: [] ∧
      (expecting (.environment (.read 10))).world.script = .environment (.read 10) :: [] ∧
      (expecting (.environment (.read 10))).world.region.wf = true ∧ busy.world.envMayWrite = true :=
  ⟨rfl, rfl, rfl, by decide, rfl⟩

theorem witness_StepWaits : busy.world.script = [] := rfl

/-- A state that has the invariant of the registers and in which a buffer exists. -/
theorem busy_registersOk : busy.RegistersOk := by
  refine ⟨by decide, fun _ => ⟨fun ch => ?_, by decide, by decide, by decide⟩, by decide, by decide, by decide, by decide,
    by decide, by decide⟩
  cases ch <;> decide

theorem witness_RegistersOkKept :
    (expecting (.transaction (encode .fmtset))).RegistersOk ∧
      ∃ t, step (expecting (.transaction (encode .fmtset))) = .next t := by
  refine ⟨?_, _, rfl⟩
  obtain ⟨h1, h2, h3, h4, h5, h6, h7, h8⟩ := busy_registersOk
  exact ⟨h1, h2, h3, h4, h5, h6, h7, h8⟩

theorem witness_RegionOkKept :
    (expecting (.transaction (encode .setpixel))).world.Ok ∧
      ∃ t, step (expecting (.transaction (encode .setpixel))) = .next t := by
  refine ⟨⟨by decide, ?_⟩, _, rfl⟩
  show ∀ c ∈ [((10, 0xB3) : Host.Cell), (11, 0x12)], c.1 < 16
  decide

/-- The last byte of 16, and one that holds the value that is not listed. -/
theorem witness_StartContentsAreOpen :
    15 < 16 ∧ Memory.ofContents (fun off => if off = 15 then 0xEE else 0x00) 16 = [(15, 0xEE)] := by decide

theorem witness_CanonicalRegionUnique :
    busy.world.region.wf = true ∧ ∀ x, busy.world.region.read x = (Memory.write [(10, 0xB3)] 11 0x12).read x :=
  ⟨by decide, fun _ => rfl⟩

theorem witness_RegionChangesAreSeen :
    (expecting (.transaction (encode .setpixel))).world.script ≠ [] ∧
      ∃ t, step (expecting (.transaction (encode .setpixel))) = .next t := ⟨by decide, _, rfl⟩

/-- Each of the clauses: a unit that runs and faults, one that is halted, a reset of a halted one, a WR and a RD of it. -/
theorem witness_FaultSticks :
    (fresh.status.fault = false ∧ fresh.status.faultCode = 0 ∧ ∃ t, exec .encode fresh = .next t ∧ t.status.fault = true) ∧
      (halted.status.fault = true ∧ ∃ t, exec .setpixel halted = .next t) ∧
      (∃ t, step { halted with world := { halted.world with script := [.reset] } } = .next t ∧ t.status.fault = false) ∧
      (∀ a, Instr.fmtset ≠ .rd a) ∧ (∃ t, exec (.rd 0x40) halted = .next t ∧ t.world.response = some 0) :=
  ⟨⟨rfl, rfl, _, rfl, rfl⟩, ⟨rfl, _, rfl⟩, ⟨_, rfl, rfl⟩, fun _ => nofun, ⟨_, rfl, rfl⟩⟩

theorem witness_FaultsArePrecise :
    straddling.status.fault = false ∧ ∃ t, exec .setpixel straddling = .next t ∧ t.status.fault = true :=
  ⟨rfl, _, rfl, by decide⟩

theorem witness_NeedsFormat : fresh.status.fault = false ∧ fresh.status.fmtValid = false := by decide

theorem witness_NeedsBuffer : formatted.status.fault = false ∧ formatted.status.bufValid = false := by decide

theorem witness_PixelOutsideRegionFaults :
    straddling.status.fault = false ∧ straddling.status.bufValid = true ∧ straddling.inBounds ∧
      straddling.world.regionSize.val < straddling.pixelOffset + straddling.fmt.byteCount := by decide

/-- A format that was rejected, for the last clause; a buffer of good geometry, and coordinates outside it. -/
theorem witness_NoFurtherErrors :
    (drawing.status.fault = false ∧ drawing.status.fmtValid = true ∧ drawing.status.bufValid = true) ∧
      drawing.GeometryWellFormed ∧ (outOfBounds.status.bufValid = true ∧ ¬ outOfBounds.inBounds) ∧
      (∃ t, exec .fmtset { drawing with desc := { desc565 with bpp := 17 } } = .next t ∧ t.status.fmtErr ≠ 0) :=
  ⟨by decide, ⟨by decide, by decide⟩, by decide, _, rfl, by decide⟩

theorem witness_WrStores :
    fresh.status.fault = false ∧ ((0x00 : RegNumber).toNat ≤ 0x07 ∧ (0x07 : RegNumber).toNat ≤ 0x07) ∧
      (0x10 ≤ (0x10 : RegNumber).toNat ∧ (0x17 : RegNumber).toNat ≤ 0x17) := by decide

theorem witness_WrBadAccess :
    fresh.status.fault = false ∧ (0x08 ≤ (0x08 : RegNumber).toNat ∧ (0x0F : RegNumber).toNat ≤ 0x0F) ∧
      (0x18 ≤ (0x18 : RegNumber).toNat ∧ (0x1E : RegNumber).toNat ≤ 0x1E) ∧ 0x20 ≤ (0x20 : RegNumber).toNat ∧
      0x20 ≤ (0xFF : RegNumber).toNat := by decide

theorem witness_WrToCmdIsTheCommand : decodeCommand 0x00000310 = .ok (.pack .alpha) := by rfl

theorem witness_WrIllegalCommand : fresh.status.fault = false ∧ (0x00000410 : Word) ∉ commandWords := by decide

theorem witness_RdAnswers :
    (0x00 : RegNumber).toNat ≤ 0x17 ∧ (0x17 : RegNumber).toNat ≤ 0x17 ∧ (0x1E : RegNumber).toNat = 0x1E := by decide

theorem witness_RdBadAccess :
    (0x18 ≤ (0x18 : RegNumber).toNat ∧ (0x1D : RegNumber).toNat ≤ 0x1D) ∧ 0x1F ≤ (0x1F : RegNumber).toNat ∧
      0x1F ≤ (0xFF : RegNumber).toNat := by decide

/-- A descriptor at the bounds of the three conditions: lengths 0 and 16, and each of the four widths. -/
def extreme (bpp : BitVec 8) : State :=
  { fresh with desc := { desc565 with red := ⟨16, 31, false⟩, green := ⟨0, 31, false⟩, bpp := bpp } }

theorem witness_FmtsetAccepts :
    (extreme 8).status.fault = false ∧
      (∀ ch, ((extreme 8).desc.channel ch).length.toNat ≤ 16 ∧ ((extreme 8).desc.channel ch).msbr = false) ∧
      (extreme 8).desc.bpp.toNat = 8 ∧ (extreme 16).desc.bpp.toNat = 16 ∧ (extreme 24).desc.bpp.toNat = 24 ∧
      (extreme 32).desc.bpp.toNat = 32 := by
  refine ⟨rfl, fun ch => ?_, rfl, rfl, rfl, rfl⟩
  cases ch <;> decide

/-- One state for each of the three clauses: a length of 17, a channel with MSBR, and each kind of bad width. -/
theorem witness_FmtsetRejects :
    (∃ ch, (({ desc565 with blue := ⟨17, 0, true⟩ } : Descriptor).channel ch).length.toNat > 16) ∧
      ((∀ ch, (({ desc565 with alpha := ⟨0, 0, true⟩ } : Descriptor).channel ch).length.toNat ≤ 16) ∧
        ∃ ch, (({ desc565 with alpha := ⟨0, 0, true⟩ } : Descriptor).channel ch).msbr = true) ∧
      ((∀ ch, ((extreme 0).desc.channel ch).length.toNat ≤ 16 ∧ ((extreme 0).desc.channel ch).msbr = false) ∧
        (extreme 0).desc.bpp.toNat = 0 ∧ (extreme 33).desc.bpp.toNat % 8 ≠ 0 ∧ (extreme 40).desc.bpp.toNat > 32) := by
  refine ⟨⟨.blue, by decide⟩, ⟨fun ch => ?_, .alpha, by decide⟩, fun ch => ?_, by decide, by decide, by decide⟩
  · cases ch <;> decide
  · cases ch <;> decide

theorem witness_BufsetLatches : formatted.status.fault = false ∧ formatted.status.fmtValid = true := by decide

theorem witness_LatchedConfiguration :
    (Instr.wellFormed .bufset = true ∧ ∃ t, exec .bufset formatted = .next t) ∧
      (Instr.wellFormed .getpixel = true ∧ ∃ t, exec .getpixel busy = .next t) ∧
      (Instr.wellFormed (.wr 0x00 5) = true ∧ ∃ t, exec (.wr 0x00 5) drawing = .next t) :=
  ⟨⟨rfl, _, rfl⟩, ⟨rfl, _, rfl⟩, ⟨by decide, _, rfl⟩⟩

theorem witness_PackBits : (16 : BitVec 5).toNat ≤ 16 ∧ 31 < 32 := by decide

theorem witness_UnpackBits :
    (⟨0, 13⟩ : ChannelSpec).length = 0 ∧ 1 ≤ (⟨16, 31⟩ : ChannelSpec).length.toNat ∧
      (⟨16, 31⟩ : ChannelSpec).length.toNat ≤ 16 := by decide

/-- Each of the laws: a channel that ends at bit 31, one that goes past it, one of length 0, one of length 16. -/
theorem witness_ChannelLaws :
    (1 ≤ (⟨8, 24⟩ : ChannelSpec).length.toNat ∧ (⟨8, 24⟩ : ChannelSpec).offset.toNat + (⟨8, 24⟩ : ChannelSpec).length.toNat ≤ 32) ∧
      (1 ≤ (⟨16, 17⟩ : ChannelSpec).length.toNat ∧
        32 < (⟨16, 17⟩ : ChannelSpec).offset.toNat + (⟨16, 17⟩ : ChannelSpec).length.toNat) ∧
      (⟨0, 31⟩ : ChannelSpec).length = 0 ∧
      ((⟨16, 16⟩ : ChannelSpec).length.toNat = 16 ∧ (⟨16, 16⟩ : ChannelSpec).offset.toNat ≤ 16) ∧
      (0x00FF : Half).toNat ≤ (0xFF00 : Half).toNat := by decide

/-- For PackResult, UnpackResult, EncodeResult and DecodeResult alike. -/
theorem witness_CodecResult : formatted.status.fault = false ∧ formatted.status.fmtValid = true := by decide

theorem rgb565_disjoint : rgb565.ChannelsDisjoint := by
  intro a b i ha hb
  have ha : _ ∧ _ := ha
  have hb : _ ∧ _ := hb
  cases a <;> cases b <;> first | rfl | (simp [PixelFormat.channel, rgb565] at ha hb; try omega)

theorem witness_DecodeOfEncode : rgb565.ChannelsDisjoint ∧ rgb565.InContainer := by
  refine ⟨rgb565_disjoint, fun ch => ?_⟩
  cases ch <;> decide

theorem witness_EncodeOfDecode :
    (∀ ch, (rgb565.channel ch).length.toNat ≤ 16) ∧
      (rgb565.red = ⟨5, 11⟩ ∧ rgb565.green = ⟨6, 5⟩ ∧ rgb565.blue = ⟨5, 0⟩ ∧ rgb565.alpha = ⟨0, 0⟩) ∧
      (0xFFFF : Word).toNat < 2 ^ 16 := by
  refine ⟨fun ch => ?_, by decide, by decide⟩
  cases ch <;> decide

theorem witness_BytesOfPixel : (4 ≤ 4 ∧ 3 < 4) ∧ disassemble 0x00EEEEEE 2 = 0xEE ∧
    assemble (fun _ => 0xEE) 3 = 0x00EEEEEE := by decide

theorem witness_AddressIsExact :
    { drawing with buf := ⟨0xFFFFFFFF, 0x7FFFFFFF, 0x7FFFFFFF⟩, fmt := { rgb565 with bytesPerPixel := 4 }
                   opr := { drawing.opr with x := 0x7FFFFFFE, y := 0x7FFFFFFE } : State }.inBounds ∧
      ({ rgb565 with bytesPerPixel := 4 } : PixelFormat).byteCount ≤ 4 := by decide

/-- Two different pixels, the last of their rows, and a byte of the padding (offset 6 of row 0). -/
theorem witness_GeometryLaws :
    drawing.GeometryWellFormed ∧ InBounds drawing.buf 2 1 ∧ InBounds drawing.buf 2 0 ∧ ((2 : Int) ≠ 2 ∨ (1 : Int) ≠ 0) ∧
      (drawing.buf.width.toNat * drawing.fmt.byteCount ≤ 6 ∧ 7 < drawing.buf.pitch.toNat) :=
  ⟨⟨by decide, by decide⟩, by decide, by decide, by decide, by decide⟩

/-- For GetpixelOutside and SetpixelOutside alike: to the right, to the left and below. -/
theorem witness_PixelOutside :
    outOfBounds.status.fault = false ∧ outOfBounds.status.bufValid = true ∧ ¬ outOfBounds.inBounds ∧
      ¬ (drawing.at 0xFFFFFFFF 0).inBounds ∧ ¬ (drawing.at 0 2).inBounds := by decide

theorem busy_touches : busy.TouchesRegion := ⟨by decide, by decide, by decide, by decide⟩

/-- The environment of `busy` may write, and writes, but not the bytes at 10 to 13: those of (1, 1) and (2, 1). -/
theorem busy_quiet (k x : Nat) (hx : 10 ≤ x ∧ x ≤ 13) : busy.world.QuietAt k x := by
  intro _ slot hs v hv
  have h := List.mem_of_mem_take hs
  simp only [busy, outside, List.mem_cons, List.not_mem_nil, or_false] at h
  rcases h with rfl | rfl | rfl | rfl <;> simp at hv <;> omega

/-- For GetpixelInside and SetpixelInside alike, with an environment at work on other bytes. -/
theorem witness_PixelInside :
    busy.TouchesRegion ∧ busy.world.region.wf = true ∧ busy.world.PixelQuiet busy.fmt.byteCount busy.pixelOffset busy.fmt.byteCount ∧
      busy.world.PixelQuiet (2 * busy.fmt.byteCount) busy.pixelOffset busy.fmt.byteCount ∧ ¬ busy.pixelHolds 12 ∧
      busy.world.QuietAt busy.fmt.byteCount 12 := by
  have hq : ∀ k, busy.world.PixelQuiet k busy.pixelOffset busy.fmt.byteCount := by
    intro k i hi
    have : i < 2 := hi
    have h10 : busy.pixelOffset = 10 := by decide
    exact busy_quiet _ _ (by omega)
  refine ⟨busy_touches, by decide, hq _, hq _, ?_, busy_quiet _ _ (by decide)⟩
  unfold State.pixelHolds
  decide

theorem witness_AccessesOfPixel :
    busy.TouchesRegion ∧ (∃ t, exec .getpixel busy = .next t) ∧ (∃ t, exec .setpixel busy = .next t) ∧
      (Instr.encode ≠ .getpixel ∧ Instr.encode ≠ .setpixel) := ⟨busy_touches, ⟨_, rfl⟩, ⟨_, rfl⟩, by decide⟩

theorem witness_EveryByteOrder :
    busy.TouchesRegion ∧ [11, 10].Perm (pixelOffsets busy.pixelOffset busy.fmt.byteCount) :=
  ⟨busy_touches, by decide⟩

/-- The second byte new, the first not. -/
theorem witness_PartialPixelSeen :
    busy.TouchesRegion ∧ busy.world.region.wf = true ∧ ∃ i < busy.fmt.byteCount, decide (i = 1) = false :=
  ⟨busy_touches, by decide, 0, by decide, rfl⟩

/-- Both clauses: a pixel of two bytes, read from the last to the first, and the one place between two reads. -/
theorem witness_TornReadPossible :
    busy.TouchesRegion ∧ busy.world.region.wf = true ∧ busy.world.envMayWrite = true ∧
      [11, 10].Perm (pixelOffsets busy.pixelOffset busy.fmt.byteCount) ∧ 0 < 1 ∧ 1 < busy.fmt.byteCount :=
  ⟨busy_touches, by decide, rfl, by decide, by decide, by decide⟩

theorem witness_WriteThenRead :
    busy.RegistersOk ∧ busy.TouchesRegion ∧ busy.world.region.wf = true ∧
      busy.world.PixelQuiet (2 * busy.fmt.byteCount) busy.pixelOffset busy.fmt.byteCount ∧ busy.fmt.ChannelsFit := by
  refine ⟨busy_registersOk, busy_touches, by decide, witness_PixelInside.2.2.2.1, fun ch => ?_⟩
  cases ch <;> decide

theorem witness_OtherPixelsKept :
    busy.TouchesRegion ∧ busy.GeometryWellFormed ∧ busy.world.region.wf = true ∧
      ((2 : Word) ≠ busy.opr.x ∨ (1 : Word) ≠ busy.opr.y) ∧ (busy.at 2 1).inBounds ∧
      busy.world.PixelQuiet (2 * busy.fmt.byteCount) (busy.at 2 1).pixelOffset busy.fmt.byteCount := by
  refine ⟨busy_touches, ⟨by decide, by decide⟩, by decide, by decide, by decide, fun i hi => ?_⟩
  have : i < 2 := hi
  have h12 : (busy.at 2 1).pixelOffset = 12 := by decide
  exact busy_quiet _ _ (by omega)

theorem witness_GetpixelTwice :
    busy.TouchesRegion ∧ busy.world.region.wf = true ∧
      busy.world.PixelQuiet (2 * busy.fmt.byteCount) busy.pixelOffset busy.fmt.byteCount :=
  ⟨busy_touches, by decide, witness_PixelInside.2.2.2.1⟩

/-- Operands at the ends of their ranges. -/
theorem witness_SetdescWrites : fresh.status.fault = false ∧
    expand (.setdesc .alpha 255 31 true) = [.wr 0x03 0x00011FFF] := by decide

end Sys2Proof.Tests
end

section
/-! SUPPORT. What the decoder makes of the transactions the encoder emits (30_encoding.md R60, R62), and the step that
runs one. -/

namespace Sys2Proof

/-! ### The decoder on each kind of transaction -/

theorem decode_rdTransaction (addr : RegNumber) : decode (rdTransaction addr) = .rd addr := by
  simp only [decode, rdTransaction_we, rdTransaction_addr, if_true]

theorem decode_wrTransaction_of_ne {addr : RegNumber} (wdata : Word) (h : addr ≠ 0x1F) :
    decode (wrTransaction addr wdata) = .wr addr wdata := by
  simp only [decode, wrTransaction_we, wrTransaction_addr, wrTransaction_wdata, if_pos h, Bool.true_eq_false, if_false]

theorem decode_wrTransaction_cmd_of_ok {w : Word} {c : Command} (h : decodeCommand w = .ok c) :
    decode (wrTransaction 0x1F w) = instrOfCommand c := by
  simp only [decode, wrTransaction_we, wrTransaction_addr, wrTransaction_wdata, h, ne_eq, not_true, Bool.true_eq_false,
    if_false]

theorem decode_wrTransaction_cmd_of_error {w : Word} {e : DecodeError} (h : decodeCommand w = .error e) :
    decode (wrTransaction 0x1F w) = .wr 0x1F w := by
  simp only [decode, wrTransaction_we, wrTransaction_addr, wrTransaction_wdata, h, ne_eq, not_true, Bool.true_eq_false,
    if_false]

/-- A command's word, sent to CMD, is the command (30_encoding.md R62, R69). -/
theorem decode_wrTransaction_encodeCommand (c : Command) :
    decode (wrTransaction 0x1F (encodeCommand c)) = instrOfCommand c :=
  decode_wrTransaction_cmd_of_ok (decodeCommand_encodeCommand c)

/-! ### Well-formed WRs -/

theorem encodeCommand_mem_commandWords (c : Command) : encodeCommand c ∈ commandWords := by
  cases c with
  | pack ch => cases ch <;> decide
  | unpack ch => cases ch <;> decide
  | _ => decide

theorem wellFormed_wr_iff (addr : RegNumber) (wdata : Word) :
    (Instr.wr addr wdata).wellFormed = true ↔ (addr = 0x1F → wdata ∉ commandWords) := by
  simp [Instr.wellFormed, imp_iff_not_or]

/-- A WR that spells no command stays a WR: a word that decodes to a command is one of the 14. -/
theorem decode_wrTransaction_of_wellFormed {addr : RegNumber} {wdata : Word}
    (h : (Instr.wr addr wdata).wellFormed = true) : decode (wrTransaction addr wdata) = .wr addr wdata := by
  by_cases hcmd : addr = 0x1F
  · subst hcmd
    cases hd : decodeCommand wdata with
    | error e => exact decode_wrTransaction_cmd_of_error hd
    | ok c =>
      have hmem : wdata ∈ commandWords := decodeCommand_ok hd ▸ encodeCommand_mem_commandWords c
      exact absurd hmem ((wellFormed_wr_iff 0x1F wdata).mp h rfl)
  · exact decode_wrTransaction_of_ne wdata hcmd

/-! ### The round trip -/

theorem decode_encode {i : Instr} (h : i.wellFormed = true) : decode (encode i) = i := by
  cases i with
  | wr addr wdata => exact decode_wrTransaction_of_wellFormed h
  | rd addr => exact decode_rdTransaction addr
  | fmtset => exact decode_wrTransaction_encodeCommand .fmtset
  | bufset => exact decode_wrTransaction_encodeCommand .bufset
  | pack ch => exact decode_wrTransaction_encodeCommand (.pack ch)
  | unpack ch => exact decode_wrTransaction_encodeCommand (.unpack ch)
  | encode => exact decode_wrTransaction_encodeCommand .encode
  | decode => exact decode_wrTransaction_encodeCommand .decode
  | getpixel => exact decode_wrTransaction_encodeCommand .getpixel
  | setpixel => exact decode_wrTransaction_encodeCommand .setpixel

namespace Machine

/-! ### The step of a transaction -/

theorem step_transaction {s : State} {t : Transaction} {rest : List Event}
    (h : s.world.script = .transaction t :: rest) : step s = exec (decode t) (s.beginEvent rest) := by
  simp only [step, h]

/-- Settles O6: the step of a transaction executes what it decodes to, and the transaction of a well-formed instruction
decodes to that instruction. -/
theorem stepRunsDecoded : Obligations.StepRunsDecoded := by
  intro s i rest hwf hscript
  calc step s = exec (decode (encode i)) (s.beginEvent rest) := step_transaction hscript
    _ = exec i (s.beginEvent rest) := by rw [decode_encode hwf]

end Machine

end Sys2Proof
end

section
/-! SUPPORT. What one instruction and one step can do to the registers, said once: the inversion lemmas that the
statements about every instruction and every step use. -/

namespace Sys2Proof.Machine

/-! ### The instructions and the steps -/

theorem exec_wr (addr : RegNumber) (w : Word) (s : State) : exec (.wr addr w) s = acceptWrite (wrEffect addr w) s := rfl

theorem exec_rd (addr : RegNumber) (s : State) : exec (.rd addr) s = .next (rdEffect addr s) := rfl

theorem exec_instrOfCommand (c : Command) (s : State) : exec (instrOfCommand c) s = acceptWrite (runCommand c) s := by
  cases c <;> rfl

theorem instrOfCommand_ne_rd (c : Command) (addr : RegNumber) : instrOfCommand c ≠ .rd addr := by
  cases c <;> exact nofun

/-- An instruction is a WR, a RD or a command. -/
theorem instr_cases (i : Instr) : (∃ addr w, i = .wr addr w) ∨ (∃ addr, i = .rd addr) ∨ ∃ c, i = instrOfCommand c := by
  cases i with
  | wr addr w => exact .inl ⟨addr, w, rfl⟩
  | rd addr => exact .inr (.inl ⟨addr, rfl⟩)
  | fmtset => exact .inr (.inr ⟨.fmtset, rfl⟩)
  | bufset => exact .inr (.inr ⟨.bufset, rfl⟩)
  | pack ch => exact .inr (.inr ⟨.pack ch, rfl⟩)
  | unpack ch => exact .inr (.inr ⟨.unpack ch, rfl⟩)
  | encode => exact .inr (.inr ⟨.encode, rfl⟩)
  | decode => exact .inr (.inr ⟨.decode, rfl⟩)
  | getpixel => exact .inr (.inr ⟨.getpixel, rfl⟩)
  | setpixel => exact .inr (.inr ⟨.setpixel, rfl⟩)

/-- Everything an instruction can do: a RD answers, a halted unit ignores the rest, and a unit that is not halted takes
the effect of the WR or of the command. -/
theorem exec_cases {i : Instr} {s t : State} (h : exec i s = .next t) :
    (∃ addr, i = .rd addr ∧ t = rdEffect addr s) ∨
    (s.status.fault = true ∧ t = s.answer none) ∨
    (s.status.fault = false ∧ ∃ addr w, i = .wr addr w ∧ t = wrEffect addr w (s.answer none)) ∨
    (s.status.fault = false ∧ ∃ c, i = instrOfCommand c ∧ t = runCommand c (s.answer none)) := by
  obtain ⟨addr, w, rfl⟩ | ⟨addr, rfl⟩ | ⟨c, rfl⟩ := instr_cases i
  · rw [exec_wr] at h
    obtain ⟨hf, ht⟩ | ⟨hf, ht⟩ := acceptWrite_next h
    · exact .inr (.inl ⟨hf, ht⟩)
    · exact .inr (.inr (.inl ⟨hf, addr, w, rfl, ht⟩))
  · cases h
    exact .inl ⟨addr, rfl, rfl⟩
  · rw [exec_instrOfCommand] at h
    obtain ⟨hf, ht⟩ | ⟨hf, ht⟩ := acceptWrite_next h
    · exact .inr (.inl ⟨hf, ht⟩)
    · exact .inr (.inr (.inr ⟨hf, c, rfl, ht⟩))

theorem step_reset {s : State} {rest : List Event} (h : s.world.script = .reset :: rest) :
    step s = .next (s.beginEvent rest).resetUnit := by
  simp only [step, h]

theorem step_environment {s : State} {act : EnvAction} {rest : List Event}
    (h : s.world.script = .environment act :: rest) : step s = .next ((s.beginEvent rest).environmentStep act) := by
  simp only [step, h]

theorem step_waits {s : State} (h : s.world.script = []) : step s = .next s := by
  simp only [step, h]

/-- Everything a step can do. -/
theorem step_cases {s t : State} (h : step s = .next t) :
    (s.world.script = [] ∧ t = s) ∨
    (∃ tr rest, s.world.script = .transaction tr :: rest ∧ exec (Sys2Proof.decode tr) (s.beginEvent rest) = .next t) ∨
    (∃ rest, s.world.script = .reset :: rest ∧ t = (s.beginEvent rest).resetUnit) ∨
    (∃ act rest, s.world.script = .environment act :: rest ∧ t = (s.beginEvent rest).environmentStep act) := by
  cases hs : s.world.script with
  | nil =>
    rw [step_waits hs] at h; cases h
    exact .inl ⟨rfl, rfl⟩
  | cons e rest =>
    cases e with
    | transaction tr => exact .inr (.inl ⟨tr, rest, rfl, step_transaction hs ▸ h⟩)
    | reset =>
      rw [step_reset hs] at h; cases h
      exact .inr (.inr (.inl ⟨rest, rfl, rfl⟩))
    | environment act =>
      rw [step_environment hs] at h; cases h
      exact .inr (.inr (.inr ⟨act, rest, rfl, rfl⟩))

/-! ### The commands -/

/-- Two states with one configuration: their descriptor, format, buffer and STATUS agree. -/
structure State.SameConfiguration (s t : State) : Prop where
  desc : t.desc = s.desc
  fmt : t.fmt = s.fmt
  buf : t.buf = s.buf
  status : t.status = s.status

theorem State.SameConfiguration.answer (s : State) (r : Option Word) : s.SameConfiguration (s.answer r) :=
  ⟨rfl, rfl, rfl, rfl⟩

theorem State.SameConfiguration.setPix (s : State) (p : Word) : s.SameConfiguration (s.setPix p) :=
  ⟨rfl, rfl, rfl, rfl⟩

theorem State.SameConfiguration.setV16 (s : State) (v : Half) : s.SameConfiguration (s.setV16 v) :=
  ⟨rfl, rfl, rfl, rfl⟩

theorem State.SameConfiguration.setColor (s : State) (c : Color) : s.SameConfiguration (s.setColor c) :=
  ⟨rfl, rfl, rfl, rfl⟩

theorem State.SameConfiguration.setWorld (s : State) (w : World) : s.SameConfiguration (s.setWorld w) :=
  ⟨rfl, rfl, rfl, rfl⟩

theorem needsFormat_fault_or_same {s t act : State} (hact : s.SameConfiguration act)
    (h : (if s.status.fmtValid = false then takeFault .noFormat s else act) = t) :
    (∃ f, t = takeFault f s) ∨ s.SameConfiguration t := by
  obtain ⟨-, rfl⟩ | ⟨-, rfl⟩ := needsFormat_cases h
  · exact .inl ⟨_, rfl⟩
  · exact .inr hact

theorem getpixelEffect_fault_or_same (s : State) :
    (∃ f, getpixelEffect s = takeFault f s) ∨ s.SameConfiguration (getpixelEffect s) := by
  obtain ⟨-, h⟩ | ⟨-, -, h⟩ | ⟨-, -, -, h⟩ | ⟨-, -, w, p, -, h⟩ := getpixelEffect_cases s <;> rw [h]
  · exact .inl ⟨_, rfl⟩
  · exact .inr (.setColor s _)
  · exact .inl ⟨_, rfl⟩
  · exact .inr ⟨rfl, rfl, rfl, rfl⟩

theorem setpixelEffect_fault_or_same (s : State) :
    (∃ f, setpixelEffect s = takeFault f s) ∨ s.SameConfiguration (setpixelEffect s) := by
  obtain ⟨-, h⟩ | ⟨-, -, h⟩ | ⟨-, -, -, h⟩ | ⟨-, -, w, -, h⟩ := setpixelEffect_cases s <;> rw [h]
  · exact .inl ⟨_, rfl⟩
  · exact .inr ⟨rfl, rfl, rfl, rfl⟩
  · exact .inl ⟨_, rfl⟩
  · exact .inr (.setWorld s w)

/-- Everything a command can do to the configuration on a unit that is not halted: it faults, it leaves the
configuration, it is FMTSET and rejects or latches a format, or it is BUFSET and latches a buffer. -/
theorem runCommand_cases (c : Command) (s : State) :
    (∃ f, runCommand c s = takeFault f s) ∨ s.SameConfiguration (runCommand c s) ∨
    (c = .fmtset ∧ ∃ e, runCommand c s = raiseUnsupportedFormat e (discardFormat s)) ∨
    (c = .fmtset ∧ ∃ f, validate s.desc = .ok f ∧ runCommand c s = latchFormat f (discardFormat s)) ∨
    (c = .bufset ∧ s.status.fmtValid = true ∧ runCommand c s = latchBuffer s) := by
  cases c with
  | fmtset =>
    obtain ⟨e, -, h⟩ | ⟨f, hv, h⟩ := fmtsetEffect_cases s
    · exact .inr (.inr (.inl ⟨rfl, e, h⟩))
    · exact .inr (.inr (.inr (.inl ⟨rfl, f, hv, h⟩)))
  | bufset =>
    obtain ⟨-, h⟩ | ⟨hf, h⟩ := needsFormat_cases (rfl : _ = bufsetEffect s)
    · exact .inl ⟨_, h⟩
    · exact .inr (.inr (.inr (.inr ⟨rfl, hf, h⟩)))
  | pack ch => exact (needsFormat_fault_or_same (.setPix s _) rfl).imp_right .inl
  | unpack ch => exact (needsFormat_fault_or_same (.setV16 s _) rfl).imp_right .inl
  | encode => exact (needsFormat_fault_or_same (.setPix s _) rfl).imp_right .inl
  | decode => exact (needsFormat_fault_or_same (.setColor s _) rfl).imp_right .inl
  | getpixel => exact (getpixelEffect_fault_or_same s).imp_right .inl
  | setpixel => exact (setpixelEffect_fault_or_same s).imp_right .inl

end Sys2Proof.Machine
end

section
/-! SUPPORT. The register invariant (10_state.md R26): each operation that touches the configuration keeps it, so every
instruction and every step does. -/

namespace Sys2Proof.Machine

theorem Fault.code_ne_zero (f : Fault) : f.code ≠ 0 := by cases f <;> decide

theorem Fault.code_le_five (f : Fault) : f.code.toNat ≤ 5 := by cases f <;> decide

/-! ### The operations -/

/-- The invariant speaks of the format, the buffer and STATUS alone. -/
theorem State.RegistersOk.congr {s t : State} (h : s.RegistersOk) (hf : t.fmt = s.fmt) (hb : t.buf = s.buf)
    (hst : t.status = s.status) : t.RegistersOk where
  buffer_has_format := by simpa only [hst] using h.buffer_has_format
  format_legal := by simpa only [hf, hst] using h.format_legal
  no_format := by simpa only [hf, hst] using h.no_format
  no_buffer := by simpa only [hb, hst] using h.no_buffer
  fault_has_code := by simpa only [hst] using h.fault_has_code
  error_no_format := by simpa only [hst] using h.error_no_format
  warning_exact := by simpa only [hf, hst] using h.warning_exact
  code_known := by simpa only [hst] using h.code_known

theorem State.RegistersOk.same {s t : State} (h : s.RegistersOk) (hc : s.SameConfiguration t) : t.RegistersOk :=
  h.congr hc.fmt hc.buf hc.status

theorem State.RegistersOk.answer {s : State} (h : s.RegistersOk) (r : Option Word) : (s.answer r).RegistersOk :=
  h.same (.answer s r)

/-- A state whose format, buffer and STATUS are 0 has the invariant. -/
theorem State.RegistersOk.of_zero {s : State} (hf : s.fmt = .zero) (hb : s.buf = .zero) (hst : s.status = .zero) :
    s.RegistersOk where
  buffer_has_format := by simp [hst, Status.zero]
  format_legal := by simp [hst, Status.zero]
  no_format := by simp [hf, hst, Status.zero]
  no_buffer := fun _ => hb
  fault_has_code := by simp [hst, Status.zero]
  error_no_format := by simp [hst, Status.zero]
  warning_exact := by simp [hst, Status.zero]
  code_known := by simp [hst, Status.zero]

/-- A fault of a unit that is not halted sets FAULT and a known code together; on a halted one nothing happens. -/
theorem State.RegistersOk.takeFault {s : State} (h : s.RegistersOk) (f : Fault) : (takeFault f s).RegistersOk := by
  cases hf : s.status.fault
  · rw [takeFault_running f s hf]
    exact { h with
      fault_has_code := iff_of_false nofun f.code_ne_zero
      code_known := f.code_le_five }
  · rwa [takeFault_halted f s hf]

/-- FMTSET that rejects leaves no format and no buffer beside the reason. -/
theorem State.RegistersOk.rejectFormat {s : State} (h : s.RegistersOk) (e : FormatError) :
    (raiseUnsupportedFormat e (discardFormat s)).RegistersOk where
  buffer_has_format := nofun
  format_legal := nofun
  no_format := fun _ => ⟨rfl, rfl, rfl⟩
  no_buffer := fun _ => rfl
  fault_has_code := h.fault_has_code
  error_no_format := fun _ => rfl
  warning_exact := by simp
  code_known := h.code_known

/-- FMTSET that accepts latches a legal format (41_configuration.md R91), its exact warning and no buffer. -/
theorem State.RegistersOk.latchFormat {s : State} (h : s.RegistersOk) {f : PixelFormat} (hv : validate s.desc = .ok f) :
    (latchFormat f (discardFormat s)).RegistersOk where
  buffer_has_format := nofun
  format_legal := fun _ => by
    obtain ⟨hch, -, hlo, hhi⟩ := validate_ok hv
    exact ⟨fun ch => (hch ch).1.trans_le (hch ch).2.1, hlo, hhi, rfl⟩
  no_format := nofun
  no_buffer := fun _ => rfl
  fault_has_code := h.fault_has_code
  error_no_format := fun he => absurd rfl he
  warning_exact := by simp [zeroLengthWarning]
  code_known := h.code_known

theorem State.RegistersOk.latchBuffer {s : State} (h : s.RegistersOk) (hf : s.status.fmtValid = true) :
    (latchBuffer s).RegistersOk :=
  { h with
    buffer_has_format := fun _ => hf
    no_format := fun hn => absurd (hf.symm.trans hn) nofun
    no_buffer := nofun }

/-! ### The instructions and the steps -/

theorem State.RegistersOk.runCommand {s : State} (h : s.RegistersOk) (c : Command) : (runCommand c s).RegistersOk := by
  obtain ⟨f, e⟩ | hsame | ⟨-, err, e⟩ | ⟨-, f, hv, e⟩ | ⟨-, hf, e⟩ := runCommand_cases c s
  · exact e ▸ h.takeFault f
  · exact h.same hsame
  · exact e ▸ h.rejectFormat err
  · exact e ▸ h.latchFormat hv
  · exact e ▸ h.latchBuffer hf

theorem State.RegistersOk.wrEffect {s : State} (h : s.RegistersOk) (addr : RegNumber) (w : Word) :
    (wrEffect addr w s).RegistersOk := by
  obtain e | e | ⟨r, -, -, e⟩ | ⟨c, -, -, e⟩ := wrEffect_cases addr w s <;> rw [e]
  · exact h.takeFault _
  · exact h.takeFault _
  · exact h.congr (writeRegister_fmt s w r) (writeRegister_buf s w r) (writeRegister_status s w r)
  · exact h.runCommand c

theorem State.RegistersOk.rdEffect {s : State} (h : s.RegistersOk) (addr : RegNumber) :
    (rdEffect addr s).RegistersOk := by
  obtain ⟨r, -, -, e⟩ | ⟨-, e⟩ := rdEffect_cases addr s <;> rw [e]
  · exact h.answer _
  · exact (h.takeFault _).answer _

theorem exec_keeps_registersOk {i : Instr} {s t : State} (h : s.RegistersOk) (he : exec i s = .next t) :
    t.RegistersOk := by
  obtain ⟨addr, -, rfl⟩ | ⟨-, rfl⟩ | ⟨-, addr, w, -, rfl⟩ | ⟨-, c, -, rfl⟩ := exec_cases he
  · exact h.rdEffect addr
  · exact h.answer none
  · exact (h.answer none).wrEffect addr w
  · exact (h.answer none).runCommand c

/-- Settles O13: an idle step and an access of the environment leave the registers, a reset zeroes them, and a
transaction is an instruction, each of whose operations keeps the invariant. -/
theorem registersOkKept : Obligations.RegistersOkKept := by
  intro s t h hstep
  obtain ⟨-, rfl⟩ | ⟨tr, rest, -, he⟩ | ⟨rest, -, rfl⟩ | ⟨act, rest, -, rfl⟩ := step_cases hstep
  · exact h
  · exact exec_keeps_registersOk (h.congr (t := s.beginEvent rest) rfl rfl rfl) he
  · exact .of_zero rfl rfl rfl
  · exact h.congr rfl rfl rfl

/-- Settles O12: after reset the format, the buffer and STATUS are 0. -/
theorem registersOkAtReset : Obligations.RegistersOkAtReset := State.RegistersOk.of_zero rfl rfl rfl

end Sys2Proof.Machine
end

section
/-! SUPPORT. The register space: where the fields of a word stand, what a WR of a register does to every RD, and the
numbers of the read-write registers (10_state.md R11 to R25). -/

namespace Sys2Proof

/-! ### The fields of a word -/

/-- A field is read back from where it was placed. -/
theorem extractLsb'_fieldAt_same {n w lo : Nat} (v : BitVec n) (h : lo + n ≤ w) :
    (fieldAt w lo v).extractLsb' lo n = v := by
  apply BitVec.eq_of_getLsbD_eq
  intro i hi
  rw [BitVec.getLsbD_extractLsb', fieldAt_getLsbD]
  simp [hi, show lo + i < w by omega]

/-- A field that stands elsewhere reads as 0. -/
theorem extractLsb'_fieldAt_disjoint {n w lo : Nat} (v : BitVec n) (lo' n' : Nat)
    (h : lo' + n' ≤ lo ∨ lo + n ≤ lo') : (fieldAt w lo v).extractLsb' lo' n' = 0 := by
  apply BitVec.eq_of_getLsbD_eq
  intro i hi
  rw [BitVec.getLsbD_extractLsb', fieldAt_getLsbD]
  obtain h | h := h
  · simp [show ¬ lo ≤ lo' + i by omega]
  · simp [show n ≤ lo' + i - lo by omega]

/-- A field taken out and put back is the word masked to it. -/
theorem fieldAt_extractLsb' {m : Nat} (w : BitVec m) (lo n : Nat) :
    fieldAt m lo (w.extractLsb' lo n) = w &&& fieldAt m lo (BitVec.allOnes n) := by
  apply BitVec.eq_of_getLsbD_eq
  intro i hi
  simp only [BitVec.getLsbD_and, fieldAt_getLsbD, BitVec.getLsbD_extractLsb', BitVec.getLsbD_allOnes]
  by_cases hlo : lo ≤ i
  · simp [hi, hlo, Bool.and_comm]
  · simp [hlo]

/-- A field has no bit outside its place. -/
theorem fieldAt_and_eq_zero {n w lo : Nat} {M : BitVec w} (v : BitVec n)
    (hM : fieldAt w lo (BitVec.allOnes n) &&& M = 0) : fieldAt w lo v &&& M = 0 := by
  have hv : fieldAt w lo v = fieldAt w lo v &&& fieldAt w lo (BitVec.allOnes n) := by
    apply BitVec.eq_of_getLsbD_eq
    intro i hi
    simp only [BitVec.getLsbD_and, fieldAt_getLsbD, BitVec.getLsbD_allOnes]
    by_cases hn : i - lo < n
    · simp +contextual [hn]
    · simp [BitVec.getLsbD_of_ge v _ (Nat.le_of_not_lt hn)]
  rw [hv, BitVec.and_assoc, hM]
  exact BitVec.and_zero

theorem flagBit_getLsbD {w : Nat} (v : BitVec w) (i : Nat) : Machine.flagBit (v.getLsbD i) = v.extractLsb' i 1 := by
  apply BitVec.eq_of_getLsbD_eq
  intro j hj
  obtain rfl : j = 0 := by omega
  simp [Machine.flagBit]

namespace Machine

theorem lowField_eq_fieldAt {n : Nat} (v : BitVec n) : lowField v = fieldAt 32 0 v := by
  simp [lowField, fieldAt]

theorem lowField_setWidth (w : Word) (n : Nat) : lowField (w.setWidth n) = w &&& fieldAt 32 0 (BitVec.allOnes n) := by
  rw [lowField_eq_fieldAt, show w.setWidth n = w.extractLsb' 0 n by simp [BitVec.extractLsb'], fieldAt_extractLsb']

theorem DescChannel.toWord_ofWord (w : Word) : (DescChannel.ofWord w).toWord = w &&& 0x00011FFF := by
  simp only [DescChannel.toWord, DescChannel.ofWord, flagBit_getLsbD, fieldAt_extractLsb', ← BitVec.and_or_distrib_left]
  rfl

/-! ### What a WR of a register does to every RD -/

/-- A WR of a read-write register stores the bits that have storage (10_state.md R25; 40_host_access.md R81). -/
theorem readRegister_writeRegister_same (s : State) (w : Word) {r : Reg} (h : regRights r = .readWrite) :
    readRegister (writeRegister s w r) r = w &&& storedBits r := by
  cases r with
  | descRed | descGreen | descBlue | descAlpha => exact DescChannel.toWord_ofWord w
  | descBpp | cr | cg | cb | ca | v16 => exact lowField_setWidth w _
  | descPitch | descXres | descYres | x | y | pix => exact (BitVec.and_allOnes).symm
  | fmtRed | fmtGreen | fmtBlue | fmtAlpha | fmtBypp | bufPitch | bufWidth | bufHeight | status | cmd => cases h

/-- A WR of one register leaves every other. -/
theorem readRegister_writeRegister_other (s : State) (w : Word) {r r' : Reg} (h : r' ≠ r) :
    readRegister (writeRegister s w r) r' = readRegister s r' := by
  cases r <;> cases r' <;> first | exact absurd rfl h | rfl

theorem readRegister_answer (s : State) (a : Option Word) (r : Reg) :
    readRegister (s.answer a) r = readRegister s r := by
  cases r <;> rfl

/-- The read-write registers are those of 0x00 to 0x07 and of 0x10 to 0x17 (10_state.md R11). -/
theorem exists_readWrite_reg (addr : RegNumber) (h : addr.toNat ≤ 0x07 ∨ (0x10 ≤ addr.toNat ∧ addr.toNat ≤ 0x17)) :
    ∃ r, regNumber r = addr ∧ regRights r = .readWrite := by
  have key : ∀ addr : RegNumber, (addr.toNat ≤ 0x07 ∨ (0x10 ≤ addr.toNat ∧ addr.toNat ≤ 0x17)) →
      ∃ r ∈ allRegs, regNumber r = addr ∧ regRights r = .readWrite := by decide
  obtain ⟨r, -, hr⟩ := key addr h
  exact ⟨r, hr⟩

/-- A WR of a read-write register on a unit that is not halted (40_host_access.md R81). -/
theorem exec_wr_readWrite {s : State} (w : Word) {r : Reg} (hf : s.status.fault = false)
    (hr : regRights r = .readWrite) :
    exec (.wr (regNumber r) w) s = .next (writeRegister (s.answer none) w r) := by
  rw [exec_wr, acceptWrite_running _ s hf]
  simp only [wrEffect, regOfNumber_regNumber, hr]

end Machine

end Sys2Proof
end

section
/-! SUPPORT. What the registers read: each field stands where the tables of 10_state.md put it, and reserved bits
read as 0. -/

namespace Sys2Proof.Machine

/-! ### The fields of the registers -/

theorem DescChannel.toWord_length (d : DescChannel) : d.toWord.extractLsb' 0 8 = d.length := by
  simp (disch := decide) [DescChannel.toWord, BitVec.extractLsb'_or, extractLsb'_fieldAt_same,
    extractLsb'_fieldAt_disjoint]

theorem DescChannel.toWord_offset (d : DescChannel) : d.toWord.extractLsb' 8 5 = d.offset := by
  simp (disch := decide) [DescChannel.toWord, BitVec.extractLsb'_or, extractLsb'_fieldAt_same,
    extractLsb'_fieldAt_disjoint]

theorem DescChannel.toWord_msbr (d : DescChannel) : d.toWord.getLsbD 16 = d.msbr := by
  simp [DescChannel.toWord, BitVec.getLsbD_or, fieldAt_getLsbD, flagBit, -BitVec.getLsbD_eq_getElem]

theorem ChannelSpec.toWord_length (c : ChannelSpec) : c.toWord.extractLsb' 0 5 = c.length := by
  simp (disch := decide) [ChannelSpec.toWord, BitVec.extractLsb'_or, extractLsb'_fieldAt_same,
    extractLsb'_fieldAt_disjoint]

theorem ChannelSpec.toWord_offset (c : ChannelSpec) : c.toWord.extractLsb' 8 5 = c.offset := by
  simp (disch := decide) [ChannelSpec.toWord, BitVec.extractLsb'_or, extractLsb'_fieldAt_same,
    extractLsb'_fieldAt_disjoint]

/-- The flags of STATUS, in its low four bits (10_state.md R23). -/
theorem Status.toWord_flags (st : Status) :
    st.toWord.getLsbD 0 = st.fmtValid ∧ st.toWord.getLsbD 1 = st.bufValid ∧ st.toWord.getLsbD 2 = st.fault ∧
      st.toWord.getLsbD 3 = st.zlw := by
  simp only [Status.toWord, BitVec.getLsbD_or, fieldAt_getLsbD]
  simp [flagBit]

/-- The codes of STATUS, and the bits beside them that no field has (10_state.md R23). -/
theorem Status.toWord_codes (st : Status) :
    st.toWord.extractLsb' 4 2 = st.fmtErr ∧ st.toWord.extractLsb' 8 3 = st.faultCode ∧
      st.toWord.extractLsb' 6 2 = 0 ∧ st.toWord.extractLsb' 11 21 = 0 := by
  simp (disch := decide) [Status.toWord, BitVec.extractLsb'_or, extractLsb'_fieldAt_same,
    extractLsb'_fieldAt_disjoint]

/-- The register FMT[c] of a channel (10_state.md R11, R16). -/
def fmtReg : Channel → Reg
  | .red => .fmtRed
  | .green => .fmtGreen
  | .blue => .fmtBlue
  | .alpha => .fmtAlpha

theorem readRegister_descReg (s : State) (ch : Channel) :
    readRegister s (descReg ch) = (s.desc.channel ch).toWord := by
  cases ch <;> rfl

theorem readRegister_fmtReg (s : State) (ch : Channel) : readRegister s (fmtReg ch) = (s.fmt.channel ch).toWord := by
  cases ch <;> rfl

theorem regNumber_descReg (ch : Channel) : regNumber (descReg ch) = BitVec.ofNat 8 (selectOfChannel ch).toNat := by
  cases ch <;> rfl

theorem regNumber_fmtReg (ch : Channel) : regNumber (fmtReg ch) = BitVec.ofNat 8 (8 + (selectOfChannel ch).toNat) := by
  cases ch <;> rfl

/-! ### The reserved bits -/

theorem DescChannel.toWord_reserved (d : DescChannel) : d.toWord &&& ~~~ (0x00011FFF : Word) = 0 := by
  simp (disch := decide) [DescChannel.toWord, BitVec.and_or_distrib_right, fieldAt_and_eq_zero]

theorem ChannelSpec.toWord_reserved (c : ChannelSpec) : c.toWord &&& ~~~ (0x00001F1F : Word) = 0 := by
  simp (disch := decide) [ChannelSpec.toWord, BitVec.and_or_distrib_right, fieldAt_and_eq_zero]

theorem Status.toWord_reserved (st : Status) : st.toWord &&& ~~~ (0x0000073F : Word) = 0 := by
  simp (disch := decide) [Status.toWord, BitVec.and_or_distrib_right, fieldAt_and_eq_zero]

theorem lowField_reserved {n : Nat} (v : BitVec n) {M : Word} (h : fieldAt 32 0 (BitVec.allOnes n) &&& M = 0) :
    lowField v &&& M = 0 := by
  rw [lowField_eq_fieldAt, fieldAt_and_eq_zero v h]

/-- The bits without storage read as 0 (10_state.md R25). -/
theorem readRegister_reserved (s : State) (r : Reg) : readRegister s r &&& ~~~ storedBits r = 0 := by
  cases r with
  | descRed | descGreen | descBlue | descAlpha => exact DescChannel.toWord_reserved _
  | fmtRed | fmtGreen | fmtBlue | fmtAlpha => exact ChannelSpec.toWord_reserved _
  | descBpp | fmtBypp | cr | cg | cb | ca | v16 => exact lowField_reserved _ (by decide)
  | descPitch | descXres | descYres | bufPitch | bufWidth | bufHeight | x | y | pix => exact BitVec.and_zero
  | status => exact Status.toWord_reserved _
  | cmd => exact BitVec.zero_and

/-! ### The obligations about single registers -/

/-- Settles O30: the channel registers by the places of their fields, the others by `readRegister`'s own arms. -/
theorem registerFields : Obligations.RegisterFields := by
  intro s
  refine ⟨fun ch => ⟨descReg ch, fmtReg ch, regNumber_descReg ch, regNumber_fmtReg ch, ?_⟩, by decide, ?_⟩
  · rw [readRegister_descReg, readRegister_fmtReg]
    exact ⟨DescChannel.toWord_length _, DescChannel.toWord_offset _, DescChannel.toWord_msbr _,
      ChannelSpec.toWord_length _, ChannelSpec.toWord_offset _⟩
  · repeat refine ⟨⟨rfl, rfl⟩, ?_⟩
    exact readRegister_reserved s

/-- Settles O31: the flags and the codes of the word that STATUS reads as. -/
theorem statusFields : Obligations.StatusFields := by
  intro s
  obtain ⟨hfmt, hbuf, hfault, hzlw⟩ := s.status.toWord_flags
  obtain ⟨herr, hcode, hlow, hhigh⟩ := s.status.toWord_codes
  exact ⟨hfmt, hbuf, hfault, hzlw, herr, hcode, hlow, hhigh⟩

/-- Settles O10: every field is 0 after reset, and so is each word made of them. -/
theorem resetReadsZero : Obligations.ResetReadsZero := by
  intro r
  cases r <;> rfl

/-- Settles O7: a reset event leaves the zeroed registers beside the world it found. -/
theorem stepReset : Obligations.StepReset := by
  intro s rest hscript
  exact ⟨_, step_reset hscript, ⟨rfl, rfl, rfl, rfl, rfl⟩, rfl⟩

/-- Settles O24: the number is that of a read-write register, which the WR writes and every other keeps. -/
theorem wrStores : Obligations.WrStores := by
  intro s addr w hf haddr
  obtain ⟨r, rfl, hr⟩ := exists_readWrite_reg addr haddr
  refine ⟨r, _, rfl, exec_wr_readWrite w hf hr, readRegister_writeRegister_same _ w hr, fun r' hne => ?_, ?_⟩
  · rw [readRegister_writeRegister_other _ w hne, readRegister_answer]
  · rw [writeRegister_world, answer_world]

/-! ### SETDESC -/

theorem regRights_descReg (ch : Channel) : regRights (descReg ch) = .readWrite := by
  cases ch <;> rfl

theorem writeRegister_descReg_channel (s : State) (w : Word) (ch : Channel) :
    (writeRegister s w (descReg ch)).desc.channel ch = DescChannel.ofWord w := by
  cases ch <;> rfl

/-- The descriptor word of 30_encoding.md R70 is stored as its operands. -/
theorem DescChannel.ofWord_descWord (len : BitVec 8) (off : BitVec 5) (msbr : Bool) :
    DescChannel.ofWord (descWord len off msbr) = { length := len, offset := off, msbr := msbr } := by
  have hl := len.isLt
  have ho := off.isLt
  have hm : msbr.toNat ≤ 1 := msbr.toNat_le
  have hw : (descWord len off msbr).toNat = len.toNat + 0x100 * off.toNat + 0x10000 * msbr.toNat := by
    rw [descWord, BitVec.toNat_ofNat]
    omega
  rw [DescChannel.ofWord, DescChannel.mk.injEq]
  refine ⟨BitVec.eq_of_toNat_eq ?_, BitVec.eq_of_toNat_eq ?_, ?_⟩
  · rw [BitVec.extractLsb'_toNat, hw]
    omega
  · rw [BitVec.extractLsb'_toNat, hw, Nat.shiftRight_eq_div_pow]
    omega
  · rw [BitVec.getLsbD, hw, Nat.testBit_eq_decide_div_mod_eq]
    cases msbr <;> simp <;> omega

/-- Settles O59: the one WR stores the operands in its channel's register and leaves the others. -/
theorem setdescWrites : Obligations.SetdescWrites := by
  intro s ch len off msbr hf
  refine ⟨_, _, rfl, exec_wr_readWrite _ hf (regRights_descReg ch), ?_, fun r hne => ?_, ?_⟩
  · rw [writeRegister_descReg_channel, DescChannel.ofWord_descWord]
  · rw [readRegister_writeRegister_other _ _ hne, readRegister_answer]
  · rw [writeRegister_world, answer_world]

end Sys2Proof.Machine
end

section
/-! SUPPORT. The bytes of the region at the start (10_state.md R27). -/

namespace Sys2Proof.Machine

/-- The offsets `offs` with their contents, unlisted bytes left out: an offset among them reads its contents. -/
theorem Memory.read_listed_map (f : Nat → Byte) (offs : List Nat) (x : Nat) :
    Memory.read ((offs.map fun off => (off, f off)).filter fun c => decide (c.2 ≠ Config.unlistedByte)) x =
      if x ∈ offs then f x else Config.unlistedByte := by
  induction offs with
  | nil => rfl
  | cons off offs ih =>
    rw [List.map_cons, List.filter_cons]
    by_cases hf : f off = Config.unlistedByte
    · rw [if_neg (by simp [hf]), ih]
      by_cases hx : x = off
      · simp [hx, hf]
      · simp [hx]
    · rw [if_pos (by simp [hf]), Memory.read, ih]
      by_cases hx : x = off
      · simp [hx]
      · simp [hx]

theorem Memory.read_ofContents (contents : Nat → Byte) {size off : Nat} (h : off < size) :
    (Memory.ofContents contents size).read off = contents off := by
  rw [Memory.ofContents, Memory.read_listed_map, if_pos (List.mem_range.mpr h)]

/-- Settles O60: given contents are read back, and those of `State.reset` are the open ones by definition. -/
theorem startContentsAreOpen : Obligations.StartContentsAreOpen :=
  ⟨fun contents _ _ h => Memory.read_ofContents contents h, rfl⟩

/-- Settles O14: given contents are in canonical form and list no byte at or above their size. -/
theorem regionOkAtReset : Obligations.RegionOkAtReset :=
  ⟨Memory.wf_ofContents _ _, fun _ h => (Memory.mem_ofContents h).1⟩

end Sys2Proof.Machine
end

section
/-! SUPPORT. The halted unit (10_state.md R33), and who changes the configuration (10_state.md R29 to R35). -/

namespace Sys2Proof.Machine

/-! ### What a transaction does to FAULT and FAULTCODE -/

/-- FAULT and FAULTCODE of the second state are those of the first. -/
def State.SameFault (s t : State) : Prop :=
  t.status.fault = s.status.fault ∧ t.status.faultCode = s.status.faultCode

/-- Everything a command can do to FAULT and FAULTCODE. -/
theorem runCommand_fault (c : Command) (s : State) :
    (∃ f, runCommand c s = takeFault f s) ∨ s.SameFault (runCommand c s) := by
  obtain hf | hsame | ⟨-, e, h⟩ | ⟨-, f, -, h⟩ | ⟨-, -, h⟩ := runCommand_cases c s
  · exact .inl hf
  · exact .inr ⟨congrArg _ hsame.status, congrArg _ hsame.status⟩
  all_goals
    rw [h]
    exact .inr ⟨rfl, rfl⟩

/-- Everything a WR can do to FAULT and FAULTCODE. -/
theorem wrEffect_fault (addr : RegNumber) (w : Word) (s : State) :
    (∃ f, wrEffect addr w s = takeFault f s) ∨ s.SameFault (wrEffect addr w s) := by
  obtain h | h | ⟨r, -, -, h⟩ | ⟨c, -, -, h⟩ := wrEffect_cases addr w s <;> rw [h]
  · exact .inl ⟨_, rfl⟩
  · exact .inl ⟨_, rfl⟩
  · exact .inr (by simp [State.SameFault])
  · exact runCommand_fault c s

theorem takeFault_running_fault (f : Fault) {s : State} (hf : s.status.fault = false) :
    (takeFault f s).status.fault = true ∧ (takeFault f s).status.faultCode = f.code := by
  rw [takeFault_running f s hf]
  exact ⟨rfl, rfl⟩

/-- On a unit that is not halted a transaction leaves FAULT and FAULTCODE, or sets both for a fault. -/
theorem exec_running_fault {i : Instr} {s t : State} (hf : s.status.fault = false) (he : exec i s = .next t) :
    s.SameFault t ∨ ∃ f : Fault, t.status.fault = true ∧ t.status.faultCode = f.code := by
  obtain ⟨addr, -, rfl⟩ | ⟨hh, -⟩ | ⟨-, addr, w, -, rfl⟩ | ⟨-, c, -, rfl⟩ := exec_cases he
  · obtain ⟨r, -, -, h⟩ | ⟨-, h⟩ := rdEffect_cases addr s <;> rw [h]
    · exact .inl ⟨rfl, rfl⟩
    · exact .inr ⟨.badAccess, takeFault_running_fault _ hf⟩
  · exact absurd (hf.symm.trans hh) nofun
  · obtain ⟨f, h⟩ | h := wrEffect_fault addr w (s.answer none)
    · exact .inr ⟨f, h ▸ takeFault_running_fault f hf⟩
    · exact .inl h
  · obtain ⟨f, h⟩ | h := runCommand_fault c (s.answer none)
    · exact .inr ⟨f, h ▸ takeFault_running_fault f hf⟩
    · exact .inl h

/-! ### The halted unit -/

/-- A halted unit ignores every WR and every command (10_state.md R33). -/
theorem exec_halted_of_ne_rd {i : Instr} {s : State} (hf : s.status.fault = true) (hi : ∀ addr, i ≠ .rd addr) :
    exec i s = .next (s.answer none) := by
  obtain ⟨addr, w, rfl⟩ | ⟨addr, rfl⟩ | ⟨c, rfl⟩ := instr_cases i
  · rw [exec_wr, acceptWrite_halted _ s hf]
  · exact absurd rfl (hi addr)
  · rw [exec_instrOfCommand, acceptWrite_halted _ s hf]

/-- A halted unit answers every RD, with 0 where no register answers (40_host_access.md R83). -/
theorem rdEffect_halted (addr : RegNumber) {s : State} (hf : s.status.fault = true) :
    rdEffect addr s = s.answer (some ((regOfNumber addr).elim 0 (readRegister s))) := by
  obtain ⟨r, rfl, -, h⟩ | ⟨hcmd, h⟩ := rdEffect_cases addr s <;> rw [h]
  · rw [regOfNumber_regNumber, Option.elim_some]
  · rw [takeFault_halted _ s hf]
    cases hr : regOfNumber addr with
    | none => rfl
    | some r =>
      obtain rfl := hcmd r (regNumber_of_regOfNumber hr)
      rfl

/-- A transaction of a halted unit changes its response alone. -/
theorem exec_halted {i : Instr} {s t : State} (hf : s.status.fault = true) (he : exec i s = .next t) :
    ∃ r, t = s.answer r := by
  by_cases hi : ∀ addr, i ≠ .rd addr
  · rw [exec_halted_of_ne_rd hf hi] at he
    cases he
    exact ⟨none, rfl⟩
  · obtain ⟨addr, rfl⟩ : ∃ addr, i = .rd addr := by simpa using hi
    rw [exec_rd, rdEffect_halted addr hf] at he
    cases he
    exact ⟨_, rfl⟩

/-- Of the events, only a reset ends the halt. -/
theorem step_ends_halt {s t : State} (hf : s.status.fault = true) (hstep : step s = .next t)
    (ht : t.status.fault = false) : ∃ rest, s.world.script = .reset :: rest ∧ t = (s.beginEvent rest).resetUnit := by
  obtain ⟨-, rfl⟩ | ⟨tr, rest, -, he⟩ | hreset | ⟨act, rest, -, rfl⟩ := step_cases hstep
  · exact absurd (hf.symm.trans ht) nofun
  · obtain ⟨r, rfl⟩ := exec_halted (s := s.beginEvent rest) hf he
    exact absurd (hf.symm.trans ht) nofun
  · exact hreset
  · exact absurd (hf.symm.trans ht) nofun

/-- Settles O18: a fault sets FAULT and its code, which is not 0, together; a halted unit changes its response alone,
and of the events only a reset ends the halt. -/
theorem faultSticks : Obligations.FaultSticks := by
  refine ⟨fun i s t hf hcode he => ?_, fun i s t hf he => ?_, fun s t hf hstep ht => ?_,
    fun i s hf hi => exec_halted_of_ne_rd hf hi, fun addr s hf => ?_⟩
  · obtain ⟨hfault, hfc⟩ | ⟨f, hfault, hfc⟩ := exec_running_fault hf he
    · simp [hfault, hfc, hf, hcode]
    · simp only [hfault, hfc, true_iff]
      exact f.code_ne_zero
  · obtain ⟨r, rfl⟩ := exec_halted hf he
    exact ⟨hf, rfl⟩
  · obtain ⟨rest, hscript, rfl⟩ := step_ends_halt hf hstep ht
    exact ⟨rfl, rest, hscript⟩
  · rw [exec_rd, rdEffect_halted addr hf]
    cases regOfNumber addr <;> rfl

/-! ### Who changes the configuration -/

/-- The latched format, FMT_VALID, ZLW and FMT_ERR of the second state are those of the first. -/
def State.SameFormat (s t : State) : Prop :=
  t.fmt = s.fmt ∧ t.status.fmtValid = s.status.fmtValid ∧ t.status.zlw = s.status.zlw ∧
    t.status.fmtErr = s.status.fmtErr

/-- The latched buffer and BUF_VALID of the second state are those of the first. -/
def State.SameBuffer (s t : State) : Prop := t.buf = s.buf ∧ t.status.bufValid = s.status.bufValid

theorem State.SameConfiguration.sameFormat {s t : State} (h : s.SameConfiguration t) : s.SameFormat t := by
  simp [State.SameFormat, h.fmt, h.status]

theorem State.SameConfiguration.sameBuffer {s t : State} (h : s.SameConfiguration t) : s.SameBuffer t := by
  simp [State.SameBuffer, h.buf, h.status]

theorem takeFault_sameFormat (f : Fault) (s : State) : s.SameFormat (takeFault f s) := by
  unfold takeFault
  split <;> exact ⟨rfl, rfl, rfl, rfl⟩

theorem takeFault_sameBuffer (f : Fault) (s : State) : s.SameBuffer (takeFault f s) := by
  unfold takeFault
  split <;> exact ⟨rfl, rfl⟩

theorem runCommand_sameFormat {c : Command} (hc : c ≠ .fmtset) (s : State) : s.SameFormat (runCommand c s) := by
  obtain ⟨f, h⟩ | h | ⟨hcmd, -⟩ | ⟨hcmd, -⟩ | ⟨-, -, h⟩ := runCommand_cases c s
  · exact h ▸ takeFault_sameFormat f s
  · exact h.sameFormat
  · exact absurd hcmd hc
  · exact absurd hcmd hc
  · rw [h]
    exact ⟨rfl, rfl, rfl, rfl⟩

theorem runCommand_sameBuffer {c : Command} (hf : c ≠ .fmtset) (hb : c ≠ .bufset) (s : State) :
    s.SameBuffer (runCommand c s) := by
  obtain ⟨f, h⟩ | h | ⟨hcmd, -⟩ | ⟨hcmd, -⟩ | ⟨hcmd, -⟩ := runCommand_cases c s
  · exact h ▸ takeFault_sameBuffer f s
  · exact h.sameBuffer
  · exact absurd hcmd hf
  · exact absurd hcmd hf
  · exact absurd hcmd hb

theorem runCommand_desc (c : Command) (s : State) : (runCommand c s).desc = s.desc := by
  obtain ⟨f, h⟩ | h | ⟨-, e, h⟩ | ⟨-, f, -, h⟩ | ⟨-, -, h⟩ := runCommand_cases c s
  · rw [h, takeFault_desc]
  · exact h.desc
  all_goals rw [h]; rfl

theorem rdEffect_same (addr : RegNumber) (s : State) :
    s.SameFormat (rdEffect addr s) ∧ s.SameBuffer (rdEffect addr s) ∧ (rdEffect addr s).desc = s.desc := by
  obtain ⟨r, -, -, h⟩ | ⟨-, h⟩ := rdEffect_cases addr s <;> rw [h]
  · have hsame := State.SameConfiguration.answer s (some (readRegister s r))
    exact ⟨hsame.sameFormat, hsame.sameBuffer, hsame.desc⟩
  · exact ⟨takeFault_sameFormat .badAccess s, takeFault_sameBuffer .badAccess s, takeFault_desc .badAccess s⟩

/-- A well-formed WR spells no command, so it changes neither the format nor the buffer (30_encoding.md R62). -/
theorem wrEffect_same {addr : RegNumber} {w : Word} (hwf : (Instr.wr addr w).wellFormed = true) (s : State) :
    s.SameFormat (wrEffect addr w s) ∧ s.SameBuffer (wrEffect addr w s) := by
  obtain h | h | ⟨r, -, -, h⟩ | ⟨c, rfl, hc, -⟩ := wrEffect_cases addr w s
  · exact h ▸ ⟨takeFault_sameFormat _ s, takeFault_sameBuffer _ s⟩
  · exact h ▸ ⟨takeFault_sameFormat _ s, takeFault_sameBuffer _ s⟩
  · rw [h]
    simp [State.SameFormat, State.SameBuffer]
  · have hmem : w ∈ commandWords := decodeCommand_ok hc ▸ encodeCommand_mem_commandWords c
    exact absurd hmem ((wellFormed_wr_iff 0x1F w).mp hwf rfl)

/-- Settles O35: a RD and an ignored transaction keep the configuration, a well-formed WR keeps format and buffer, and
of the commands only FMTSET and BUFSET latch. -/
theorem latchedConfiguration : Obligations.LatchedConfiguration := by
  intro i s t hwf he
  obtain ⟨addr, rfl, rfl⟩ | ⟨-, rfl⟩ | ⟨-, addr, w, rfl, rfl⟩ | ⟨-, c, rfl, rfl⟩ := exec_cases he
  · obtain ⟨hformat, hbuffer, hdesc⟩ := rdEffect_same addr s
    exact ⟨fun _ => hformat, fun _ _ => hbuffer, fun _ => hdesc⟩
  · exact ⟨fun _ => ⟨rfl, rfl, rfl, rfl⟩, fun _ _ => ⟨rfl, rfl⟩, fun _ => rfl⟩
  · obtain ⟨hformat, hbuffer⟩ := wrEffect_same hwf (s.answer none)
    exact ⟨fun _ => hformat, fun _ _ => hbuffer, fun hw => absurd rfl (hw addr w)⟩
  · exact ⟨fun hi => runCommand_sameFormat (fun hc => hi (congrArg instrOfCommand hc)) _,
      fun hi hi' => runCommand_sameBuffer (fun hc => hi (congrArg instrOfCommand hc))
        (fun hc => hi' (congrArg instrOfCommand hc)) _,
      fun _ => runCommand_desc c _⟩

end Sys2Proof.Machine
end

section
/-! SUPPORT. What one instruction and one step do to the world outside (20_memory.md R42, R46, R53, R58): the region
changes by the accesses seen, and every access seen is an admitted one. -/

namespace Sys2Proof.Machine

/-! ### Admitted accesses -/

/-- An access that `w` admits: its byte is in the region, and the environment writes only when ENV_MAY_WRITE holds
(20_memory.md R53, R58). -/
def World.AdmitsAccess (w : World) (a : Access) : Prop :=
  w.admits a.off ∧ (a.kind = .write → a.agent = .environment → w.envMayWrite = true)

theorem EnvironmentAccess.admitted {w : World} {acts : List EnvAction} {a : Access} (h : EnvironmentAccess w acts a) :
    w.AdmitsAccess a := by
  obtain ⟨-, hoff, hwrite⟩ := h
  exact ⟨hoff, fun hk _ => (hwrite hk).1⟩

/-- The accesses seen during a pixel access: the unit's are at bytes of the pixel, which the region holds. -/
theorem World.admitsPixel.admitsAccess {w : World} {a n k : Nat} {kind : AccessKind} {x : Access}
    (h : w.admitsPixel a n)
    (hx : (x.agent = .unit ∧ x.kind = kind ∧ x.off ∈ pixelOffsets a n) ∨ EnvironmentDuring w k x) :
    w.AdmitsAccess x := by
  obtain ⟨hunit, -, hoff⟩ | ⟨slot, -, henv⟩ := hx
  · obtain ⟨-, hlt⟩ := mem_pixelOffsets.mp hoff
    refine ⟨?_, fun _ he => absurd (hunit.symm.trans he) nofun⟩
    have hfits : a + n ≤ w.regionSize.val := Nat.le_of_not_lt h
    show x.off < w.regionSize.val
    omega
  · exact henv.admitted

/-! ### The commands -/

theorem needsFormat_world {s act : State} (h : act.world = s.world) :
    (if s.status.fmtValid = false then takeFault .noFormat s else act).world = s.world := by
  split
  · exact takeFault_world .noFormat s
  · exact h

/-- The region holds the bytes of an in-bounds pixel: what a pixel command of a unit that is not halted tests before its
first byte access (44_pixel_access.md R127, R128). -/
def State.ReachesPixel (s : State) : Prop :=
  s.status.bufValid = true ∧ s.inBounds ∧ s.world.admitsPixel s.pixelOffset s.fmt.byteCount

theorem State.touchesRegion_iff (s : State) : s.TouchesRegion ↔ s.status.fault = false ∧ s.ReachesPixel := Iff.rfl

/-- Everything GETPIXEL can do to the world. -/
theorem getpixelEffect_world (s : State) :
    (¬ s.ReachesPixel ∧ (getpixelEffect s).world = s.world) ∨
    (s.ReachesPixel ∧
      ∃ p, s.world.readPixel s.pixelOffset s.fmt.byteCount = some ((getpixelEffect s).world, p)) := by
  obtain ⟨hb, h⟩ | ⟨-, hi, h⟩ | ⟨-, -, hfits, h⟩ | ⟨hb, hi, w, p, hr, h⟩ := getpixelEffect_cases s <;> rw [h]
  · exact .inl ⟨fun ⟨hb', _⟩ => absurd (hb.symm.trans hb') nofun, takeFault_world _ s⟩
  · exact .inl ⟨fun ⟨_, hi', _⟩ => hi hi', rfl⟩
  · exact .inl ⟨fun ⟨_, _, hfits'⟩ => hfits hfits', takeFault_world _ s⟩
  · exact .inr ⟨⟨hb, hi, (World.readPixel_some hr).1⟩, p, hr⟩

/-- Everything SETPIXEL can do to the world. -/
theorem setpixelEffect_world (s : State) :
    (¬ s.ReachesPixel ∧ (setpixelEffect s).world = s.world) ∨
    (s.ReachesPixel ∧
      s.world.writePixel s.pixelOffset s.fmt.byteCount (encodeColor s.opr.color s.fmt) =
        some (setpixelEffect s).world) := by
  obtain ⟨hb, h⟩ | ⟨-, hi, h⟩ | ⟨-, -, hfits, h⟩ | ⟨hb, hi, w, hr, h⟩ := setpixelEffect_cases s <;> rw [h]
  · exact .inl ⟨fun ⟨hb', _⟩ => absurd (hb.symm.trans hb') nofun, takeFault_world _ s⟩
  · exact .inl ⟨fun ⟨_, hi', _⟩ => hi hi', rfl⟩
  · exact .inl ⟨fun ⟨_, _, hfits'⟩ => hfits hfits', takeFault_world _ s⟩
  · exact .inr ⟨⟨hb, hi, (World.writePixel_some hr).1⟩, hr⟩

/-- The commands but GETPIXEL and SETPIXEL leave the world. -/
theorem runCommand_world {c : Command} (hg : c ≠ .getpixel) (hs : c ≠ .setpixel) (s : State) :
    (runCommand c s).world = s.world := by
  cases c with
  | fmtset =>
    show (fmtsetEffect s).world = s.world
    obtain ⟨e, -, h⟩ | ⟨f, -, h⟩ := fmtsetEffect_cases s <;> rw [h] <;> rfl
  | bufset => exact needsFormat_world rfl
  | pack ch => exact needsFormat_world rfl
  | unpack ch => exact needsFormat_world rfl
  | encode => exact needsFormat_world rfl
  | decode => exact needsFormat_world rfl
  | getpixel => exact absurd rfl hg
  | setpixel => exact absurd rfl hs

/-- Everything a command can do to the world: nothing, or it is a pixel command that reaches its pixel, and reads or
writes it. -/
theorem runCommand_world_cases (c : Command) (s : State) :
    ((c = .getpixel ∨ c = .setpixel → ¬ s.ReachesPixel) ∧ (runCommand c s).world = s.world) ∨
    (c = .getpixel ∧ s.ReachesPixel ∧
      ∃ p, s.world.readPixel s.pixelOffset s.fmt.byteCount = some ((runCommand c s).world, p)) ∨
    (c = .setpixel ∧ s.ReachesPixel ∧
      s.world.writePixel s.pixelOffset s.fmt.byteCount (encodeColor s.opr.color s.fmt) =
        some (runCommand c s).world) := by
  by_cases hg : c = .getpixel
  · subst hg
    exact (getpixelEffect_world s).imp (fun ⟨hn, hw⟩ => ⟨fun _ => hn, hw⟩) fun h => .inl ⟨rfl, h⟩
  by_cases hs : c = .setpixel
  · subst hs
    exact (setpixelEffect_world s).imp (fun ⟨hn, hw⟩ => ⟨fun _ => hn, hw⟩) fun h => .inr ⟨rfl, h⟩
  · exact .inl ⟨fun h => (h.elim hg hs).elim, runCommand_world hg hs s⟩

/-! ### The accesses of a command, an instruction and a step -/

/-- Admitted accesses, and nothing else, take the world `w` to `w'`. -/
def World.Reaches (w w' : World) : Prop :=
  ∃ l k, World.Moves w w' l k ∧ ∀ a ∈ l, w.AdmitsAccess a

theorem World.Reaches.refl (w : World) : w.Reaches w :=
  ⟨[], 0, World.Moves.refl w, fun _ ha => absurd ha List.not_mem_nil⟩

theorem runCommand_reaches (c : Command) (s : State) : s.world.Reaches (runCommand c s).world := by
  obtain ⟨-, h⟩ | ⟨-, -, p, h⟩ | ⟨-, -, h⟩ := runCommand_world_cases c s
  · exact h ▸ World.Reaches.refl s.world
  · obtain ⟨hfits, l, m, hl, -⟩ := World.readPixel_some h
    exact ⟨l, _, m, fun a ha => hfits.admitsAccess (hl a ha)⟩
  · obtain ⟨hfits, l, m, hl, -⟩ := World.writePixel_some h
    exact ⟨l, _, m, fun a ha => hfits.admitsAccess (hl a ha)⟩

theorem wrEffect_reaches (addr : RegNumber) (w : Word) (s : State) : s.world.Reaches (wrEffect addr w s).world := by
  obtain h | h | ⟨r, -, -, h⟩ | ⟨c, -, -, h⟩ := wrEffect_cases addr w s <;> rw [h]
  · exact (takeFault_world .badAccess s).symm ▸ World.Reaches.refl s.world
  · exact (takeFault_world .illegalCommand s).symm ▸ World.Reaches.refl s.world
  · exact (writeRegister_world s w r).symm ▸ World.Reaches.refl s.world
  · exact runCommand_reaches c s

theorem rdEffect_world (addr : RegNumber) (s : State) :
    ∃ r, (rdEffect addr s).world = { s.world with response := r } := by
  obtain ⟨r, -, -, h⟩ | ⟨-, h⟩ := rdEffect_cases addr s <;> rw [h]
  · exact ⟨_, rfl⟩
  · exact ⟨some 0, by rw [answer_world, takeFault_world]⟩

/-- Everything an instruction can do to the world: it answers, and makes admitted accesses. -/
theorem exec_reaches {i : Instr} {s t : State} (h : exec i s = .next t) :
    ∃ r, World.Reaches { s.world with response := r } t.world := by
  obtain ⟨addr, -, rfl⟩ | ⟨-, rfl⟩ | ⟨-, addr, w, -, rfl⟩ | ⟨-, c, -, rfl⟩ := exec_cases h
  · obtain ⟨r, e⟩ := rdEffect_world addr s
    exact ⟨r, e ▸ World.Reaches.refl _⟩
  · exact ⟨none, World.Reaches.refl _⟩
  · exact ⟨none, wrEffect_reaches addr w (s.answer none)⟩
  · exact ⟨none, runCommand_reaches c (s.answer none)⟩

/-- The world in which an event runs: the event is taken from the script, no access is seen yet, and the response is the
event's. -/
def World.begun (w : World) (rest : List Event) (r : Option Word) : World :=
  { w with script := rest, traffic := [], response := r }

/-- Everything a step can do to the world. -/
theorem step_reaches {s t : State} (h : step s = .next t) :
    (s.world.script = [] ∧ t = s) ∨ ∃ rest r, (s.world.begun rest r).Reaches t.world := by
  obtain hidle | ⟨tr, rest, -, he⟩ | ⟨rest, -, rfl⟩ | ⟨act, rest, -, rfl⟩ := step_cases h
  · exact .inl hidle
  · obtain ⟨r, hr⟩ := exec_reaches he
    exact .inr ⟨rest, r, hr⟩
  · exact .inr ⟨rest, none, World.Reaches.refl _⟩
  · obtain ⟨l, m, hl⟩ := World.environmentAct_moves (s.beginEvent rest).world act
    exact .inr ⟨rest, s.world.response, l, 0, m, fun a ha => (hl a ha).admitted⟩

/-- Settles O15: an idle step changes nothing, and every other step makes admitted accesses, whose writes keep the
canonical form and list no byte outside the region. -/
theorem regionOkKept : Obligations.RegionOkKept := by
  intro s t hok hstep
  obtain ⟨-, rfl⟩ | ⟨rest, r, l, k, m, hl⟩ := step_reaches hstep
  · exact ⟨hok, rfl, rfl⟩
  · exact ⟨m.ok (w := s.world.begun rest r) hok fun a ha => (hl a ha).1, m.regionSize, m.envMayWrite⟩

/-- Settles O17: the accesses of a step are admitted, and the region after it is theirs. -/
theorem regionChangesAreSeen : Obligations.RegionChangesAreSeen := by
  intro s t hscript hstep
  obtain ⟨hidle, -⟩ | ⟨rest, r, l, k, m, hl⟩ := step_reaches hstep
  · exact absurd hidle hscript
  · have htraffic : t.world.traffic = l := m.traffic
    rw [htraffic]
    exact ⟨m.region, hl⟩

/-! ### The accesses of a well-formed instruction -/

/-- A well-formed WR spells no command, so it accesses no byte (30_encoding.md R62). -/
theorem wrEffect_world {addr : RegNumber} {w : Word} (hwf : (Instr.wr addr w).wellFormed = true) (s : State) :
    (wrEffect addr w s).world = s.world := by
  obtain h | h | ⟨r, -, -, h⟩ | ⟨c, rfl, hc, -⟩ := wrEffect_cases addr w s
  · rw [h, takeFault_world]
  · rw [h, takeFault_world]
  · rw [h, writeRegister_world]
  · have hmem : w ∈ commandWords := decodeCommand_ok hc ▸ encodeCommand_mem_commandWords c
    exact absurd hmem ((wellFormed_wr_iff 0x1F w).mp hwf rfl)

theorem instrOfCommand_eq_getpixel {c : Command} : instrOfCommand c = .getpixel ↔ c = .getpixel := by
  cases c <;> simp [instrOfCommand]

theorem instrOfCommand_eq_setpixel {c : Command} : instrOfCommand c = .setpixel ↔ c = .setpixel := by
  cases c <;> simp [instrOfCommand]

/-- Everything a well-formed instruction can do to the world: it answers and no more, or it is a GETPIXEL or a SETPIXEL
that touches the region, and reads or writes its pixel. -/
theorem exec_world_cases {i : Instr} {s t : State} (hwf : i.wellFormed = true) (h : exec i s = .next t) :
    ((i = .getpixel ∨ i = .setpixel → ¬ s.TouchesRegion) ∧ ∃ r, t.world = { s.world with response := r }) ∨
    (i = .getpixel ∧ s.TouchesRegion ∧
      ∃ p, (s.answer none).world.readPixel s.pixelOffset s.fmt.byteCount = some (t.world, p)) ∨
    (i = .setpixel ∧ s.TouchesRegion ∧
      (s.answer none).world.writePixel s.pixelOffset s.fmt.byteCount (encodeColor s.opr.color s.fmt) =
        some t.world) := by
  obtain ⟨addr, rfl, rfl⟩ | ⟨hf, rfl⟩ | ⟨-, addr, w, rfl, rfl⟩ | ⟨hf, c, rfl, rfl⟩ := exec_cases h
  · exact .inl ⟨nofun, rdEffect_world addr s⟩
  · exact .inl ⟨fun _ ⟨hf', _⟩ => absurd (hf.symm.trans hf') nofun, none, rfl⟩
  · exact .inl ⟨nofun, none, wrEffect_world hwf (s.answer none)⟩
  · obtain ⟨hn, hw⟩ | ⟨rfl, hp, hr⟩ | ⟨rfl, hp, hr⟩ := runCommand_world_cases c (s.answer none)
    · exact .inl ⟨fun hi htouch => hn (hi.imp instrOfCommand_eq_getpixel.mp instrOfCommand_eq_setpixel.mp)
        (s.touchesRegion_iff.mp htouch).2, none, hw⟩
    · exact .inr (.inl ⟨rfl, s.touchesRegion_iff.mpr ⟨hf, hp⟩, hr⟩)
    · exact .inr (.inr ⟨rfl, s.touchesRegion_iff.mpr ⟨hf, hp⟩, hr⟩)

theorem pixelCells_writes_perm (places : List Nat) (a n : Nat) (p : Word) :
    ((arrange places (pixelCells a n p)).map fun c => (AccessKind.write, c.1, c.2)).Perm
      ((List.range n).map fun k => (AccessKind.write, a + k, disassemble p k)) := by
  have h := (arrange_perm places (pixelCells a n p)).map fun c => (AccessKind.write, c.1, c.2)
  rwa [pixelCells, List.map_map] at h

/-- Settles O52: the unit's accesses are the arranged bytes of the pixel, which are its bytes in another order; whatever
else runs leaves the world but for the response. -/
theorem accessesOfPixel : Obligations.AccessesOfPixel := by
  intro i s t hwf he
  obtain ⟨hn, r, hw⟩ | ⟨rfl, htouch, p, hr⟩ | ⟨rfl, htouch, hr⟩ := exec_world_cases hwf he
  · refine ⟨[], ?_, fun hi htouch => absurd htouch (hn (.inl hi)), fun hi htouch => absurd htouch (hn (.inr hi)),
      fun _ => ⟨rfl, ?_⟩⟩
    · rw [hw, List.append_nil]
    · rw [hw]
  · obtain ⟨-, l, m, -, hl⟩ := World.readPixel_some hr
    refine ⟨l, m.traffic, fun _ _ => ?_, nofun, fun h => ?_⟩
    · rw [hl]
      exact (arrange_perm _ _).map _
    · exact absurd htouch (h.resolve_left fun h' => h'.1 rfl)
  · obtain ⟨-, l, m, -, hl⟩ := World.writePixel_some hr
    refine ⟨l, m.traffic, nofun, fun _ _ => ?_, fun h => ?_⟩
    · rw [hl]
      exact pixelCells_writes_perm _ _ _ _
    · exact absurd htouch (h.resolve_left fun h' => h'.2 rfl)

end Sys2Proof.Machine
end

section
/-! SUPPORT. The canonical form of a memory, and one access of the environment (20_memory.md R40, R52, R53). -/

namespace Sys2Proof.Machine

/-! ### Two canonical memories with the same bytes -/

/-- A canonical memory that reads as another one lists nothing below the other's first offset. -/
theorem Memory.first_offset_le {c c' : Host.Cell} {m m' : Memory} {lo lo' : Nat}
    (h : Memory.wfFrom lo (c :: m) = true) (h' : Memory.wfFrom lo' (c' :: m') = true)
    (hread : ∀ x, Memory.read (c :: m) x = Memory.read (c' :: m') x) : c'.1 ≤ c.1 := by
  obtain ⟨-, hlisted, -⟩ := Memory.wf_tail h
  obtain ⟨-, hlisted', htail'⟩ := Memory.wf_tail h'
  by_contra hlt
  have hbelow : Memory.read (c' :: m') c.1 = Config.unlistedByte :=
    Memory.read_below (Memory.wfFrom_cons (Nat.le_refl c'.1) hlisted' htail') (Nat.lt_of_not_le hlt)
  have hown : Memory.read (c :: m) c.1 = c.2 := by simp [Memory.read]
  exact hlisted (hown ▸ (hread c.1).trans hbelow)

/-- The bytes of a canonical memory behind its first offset are those of its tail. -/
theorem Memory.read_tail {c : Host.Cell} {m : Memory} {lo : Nat} (h : Memory.wfFrom lo (c :: m) = true) (x : Nat) :
    Memory.read m x = if x = c.1 then Config.unlistedByte else Memory.read (c :: m) x := by
  obtain ⟨-, -, htail⟩ := Memory.wf_tail h
  split
  · exact Memory.read_below htail (by omega)
  · rename_i hx
    simp [Memory.read, hx]

theorem Memory.eq_nil_of_read {m : Memory} {lo : Nat} (h : Memory.wfFrom lo m = true)
    (hread : ∀ x, m.read x = Config.unlistedByte) : m = [] := by
  cases m with
  | nil => rfl
  | cons c m =>
    obtain ⟨-, hlisted, -⟩ := Memory.wf_tail h
    have hown := hread c.1
    simp only [Memory.read, if_true] at hown
    exact absurd hown hlisted

theorem Memory.eq_of_read {m m' : Memory} {lo lo' : Nat} (h : Memory.wfFrom lo m = true)
    (h' : Memory.wfFrom lo' m' = true) (hread : ∀ x, m.read x = m'.read x) : m = m' := by
  induction m generalizing lo lo' m' with
  | nil => exact (Memory.eq_nil_of_read h' fun x => (hread x).symm).symm
  | cons c m ih =>
    cases m' with
    | nil => exact Memory.eq_nil_of_read h hread
    | cons c' m' =>
      have hoff : c.1 = c'.1 :=
        Nat.le_antisymm (Memory.first_offset_le h' h fun x => (hread x).symm) (Memory.first_offset_le h h' hread)
      have hval : c.2 = c'.2 := by simpa [Memory.read, hoff] using hread c.1
      obtain ⟨-, -, hwf⟩ := Memory.wf_tail h
      obtain ⟨-, -, hwf'⟩ := Memory.wf_tail h'
      have htail : m = m' := by
        refine ih hwf hwf' fun x => ?_
        rw [Memory.read_tail h, Memory.read_tail h', hoff, hread]
      rw [Prod.ext hoff hval, htail]

/-- Settles O16, by induction on the two lists: the first offsets agree, and so do their bytes and the tails. -/
theorem canonicalRegionUnique : Obligations.CanonicalRegionUnique :=
  fun _ _ h h' hread => Memory.eq_of_read h h' hread

/-! ### One access of the environment -/

/-- The byte at `x` after an access of the environment (20_memory.md R52, R53). -/
theorem World.environmentAct_read (w : World) (act : EnvAction) (hw : w.region.wf = true) (x : Nat) :
    (w.environmentAct act).region.read x =
      match act with
      | .read _ => w.region.read x
      | .write off v => if w.envMayWrite = true ∧ w.admits off ∧ x = off then v else w.region.read x := by
  cases act with
  | read off =>
    simp only [World.environmentAct]
    split <;> rfl
  | write off v =>
    simp only [World.environmentAct]
    by_cases hadm : w.envMayWrite = true ∧ w.admits off
    · rw [if_pos hadm]
      simp only [World.memWrite, World.observe, Memory.read_write _ _ _ hw, hadm.1, hadm.2, true_and]
    · rw [if_neg hadm, if_neg fun h => hadm ⟨h.1, h.2.1⟩]

/-- Settles O8: an access of the environment moves the world alone, and writes its one byte when it is admitted. -/
theorem stepEnvironment : Obligations.StepEnvironment := by
  intro s act rest hscript hw
  obtain ⟨l, m, -⟩ := World.environmentAct_moves (s.beginEvent rest).world act
  refine ⟨_, step_environment hscript, rfl, rfl, rfl, rfl, rfl, m.script, m.schedule, m.regionSize, m.envMayWrite,
    m.response, fun x => ?_⟩
  have h := World.environmentAct_read (s.beginEvent rest).world act hw x
  cases act with
  | read off => exact h
  | write off v => exact h

end Sys2Proof.Machine
end

section
/-! SUPPORT. The pixel commands on a unit that is not halted and has a buffer (44_pixel_access.md R127, R128): a pixel
that the region does not hold faults, and one that it holds is read or written byte by byte. -/

namespace Sys2Proof.Machine

theorem exec_getpixel_running {s : State} (hf : s.status.fault = false) :
    exec .getpixel s = .next (getpixelEffect (s.answer none)) := acceptWrite_running getpixelEffect s hf

theorem exec_setpixel_running {s : State} (hf : s.status.fault = false) :
    exec .setpixel s = .next (setpixelEffect (s.answer none)) := acceptWrite_running setpixelEffect s hf

/-! ### A pixel that the region does not hold -/

theorem getpixelEffect_regionFault {s : State} (hb : s.status.bufValid = true) (hi : s.inBounds)
    (hout : ¬ s.world.admitsPixel s.pixelOffset s.fmt.byteCount) : getpixelEffect s = takeFault .regionFault s := by
  obtain ⟨hb', -⟩ | ⟨-, hi', -⟩ | ⟨-, -, -, h⟩ | ⟨-, -, w, p, hr, -⟩ := getpixelEffect_cases s
  · exact absurd (hb'.symm.trans hb) nofun
  · exact absurd hi hi'
  · exact h
  · exact absurd (World.readPixel_some hr).1 hout

theorem setpixelEffect_regionFault {s : State} (hb : s.status.bufValid = true) (hi : s.inBounds)
    (hout : ¬ s.world.admitsPixel s.pixelOffset s.fmt.byteCount) : setpixelEffect s = takeFault .regionFault s := by
  obtain ⟨hb', -⟩ | ⟨-, hi', -⟩ | ⟨-, -, -, h⟩ | ⟨-, -, w, hr, -⟩ := setpixelEffect_cases s
  · exact absurd (hb'.symm.trans hb) nofun
  · exact absurd hi hi'
  · exact h
  · exact absurd (World.writePixel_some hr).1 hout

/-- Settles O22: the test of the region comes before the first byte access, and the fault is the first. -/
theorem pixelOutsideRegionFaults : Obligations.PixelOutsideRegionFaults := by
  intro i s hi hf hb hin hsize
  have hout : ¬ (s.answer none).world.admitsPixel s.pixelOffset s.fmt.byteCount := not_not.mpr hsize
  have hfault := takeFault_running .regionFault (s.answer none) hf
  obtain rfl | rfl := hi
  · rw [exec_getpixel_running hf, getpixelEffect_regionFault (s := s.answer none) hb hin hout, hfault]
    rfl
  · rw [exec_setpixel_running hf, setpixelEffect_regionFault (s := s.answer none) hb hin hout, hfault]
    rfl

/-! ### A pixel that the region holds -/

/-- The two states have one STATUS, and their X and Y name the same pixel of the same buffer. -/
structure State.SamePixel (s t : State) : Prop where
  status : t.status = s.status
  fmt : t.fmt = s.fmt
  buf : t.buf = s.buf
  x : t.opr.x = s.opr.x
  y : t.opr.y = s.opr.y
  regionSize : t.world.regionSize = s.world.regionSize

theorem State.SamePixel.pixelOffset {s t : State} (h : s.SamePixel t) : t.pixelOffset = s.pixelOffset := by
  simp only [State.pixelOffset, pixelColumn, pixelRow, h.fmt, h.buf, h.x, h.y]

theorem State.SamePixel.touchesRegion {s t : State} (h : s.SamePixel t) (hs : s.TouchesRegion) : t.TouchesRegion := by
  simp only [State.TouchesRegion, State.inBounds, pixelColumn, pixelRow, World.admitsPixel, h.pixelOffset, h.status,
    h.fmt, h.buf, h.x, h.y, h.regionSize]
  exact hs

/-- A GETPIXEL that touches the region reads its pixel, and gives the colour of what it read. -/
theorem exec_getpixel_of_touches {s : State} (h : s.TouchesRegion) :
    ∃ t p, exec .getpixel s = .next t ∧
      (s.answer none).world.readPixel s.pixelOffset s.fmt.byteCount = some (t.world, p) ∧
      t.opr = { s.opr with color := decodePacked p s.fmt } ∧ t.desc = s.desc ∧ s.SamePixel t := by
  obtain ⟨hf, hb, hi, hfits⟩ := h
  obtain ⟨hb', -⟩ | ⟨-, hi', -⟩ | ⟨-, -, hfits', -⟩ | ⟨-, -, w, p, hr, he⟩ := getpixelEffect_cases (s.answer none)
  · exact absurd (hb'.symm.trans hb) nofun
  · exact absurd hi hi'
  · exact absurd hfits hfits'
  · obtain ⟨-, l, m, -⟩ := World.readPixel_some hr
    exact ⟨_, p, (exec_getpixel_running hf).trans (congrArg _ he), hr, rfl, rfl, rfl, rfl, rfl, rfl, rfl, m.regionSize⟩

/-- A SETPIXEL that touches the region writes the encoded colour to its pixel. -/
theorem exec_setpixel_of_touches {s : State} (h : s.TouchesRegion) :
    ∃ t, exec .setpixel s = .next t ∧
      (s.answer none).world.writePixel s.pixelOffset s.fmt.byteCount (encodeColor s.opr.color s.fmt) = some t.world ∧
      t.opr = s.opr ∧ t.desc = s.desc ∧ s.SamePixel t := by
  obtain ⟨hf, hb, hi, hfits⟩ := h
  obtain ⟨hb', -⟩ | ⟨-, hi', -⟩ | ⟨-, -, hfits', -⟩ | ⟨-, -, w, hr, he⟩ := setpixelEffect_cases (s.answer none)
  · exact absurd (hb'.symm.trans hb) nofun
  · exact absurd hi hi'
  · exact absurd hfits hfits'
  · obtain ⟨-, l, m, -⟩ := World.writePixel_some hr
    exact ⟨_, (exec_setpixel_running hf).trans (congrArg _ he), hr, rfl, rfl, rfl, rfl, rfl, rfl, rfl, m.regionSize⟩

/-- Settles O49: the bytes read are those of the region, put together by offset, and every quiet byte stays. -/
theorem getpixelInside : Obligations.GetpixelInside := by
  intro s htouch hw hquiet
  obtain ⟨t, p, he, hr, hopr, hdesc, hsame⟩ := exec_getpixel_of_touches htouch
  obtain ⟨-, l, m, -⟩ := World.readPixel_some hr
  have hp : p = assemble (fun i => s.byte (s.pixelOffset + i)) s.fmt.byteCount :=
    World.readPixel_value (w := (s.answer none).world) hr hw hquiet
  exact ⟨t, he, hp ▸ hopr, hdesc, hsame.fmt, hsame.buf, hsame.status, m.regionSize, m.envMayWrite, m.script, m.schedule,
    m.response, fun x hx => World.readPixel_keep (w := (s.answer none).world) hr hw hx⟩

/-- Settles O51: each byte of the pixel that stays quiet holds what was written, and every other quiet byte stays. -/
theorem setpixelInside : Obligations.SetpixelInside := by
  intro s htouch hw
  obtain ⟨t, he, hr, hopr, hdesc, hsame⟩ := exec_setpixel_of_touches htouch
  obtain ⟨-, l, m, -⟩ := World.writePixel_some hr
  refine ⟨t, he, hopr, hdesc, hsame.fmt, hsame.buf, hsame.status, m.regionSize, m.envMayWrite, m.script, m.schedule,
    m.response, fun i hi hx => ?_, fun x hout hx => (World.writePixel_read hr hw hx).trans (if_neg hout)⟩
  have hread := (World.writePixel_read hr hw hx).trans (if_pos ⟨Nat.le_add_right _ i, Nat.add_lt_add_left hi _⟩)
  rwa [Nat.add_sub_cancel_left] at hread

/-! ### Two commands on one pixel, which the environment leaves alone -/

theorem World.Moves.wf {w w' : World} {l : List Access} {k : Nat} (m : World.Moves w w' l k)
    (hw : w.region.wf = true) : w'.region.wf = true := m.region ▸ wf_replay l hw

/-- A pixel that is quiet for two commands is quiet for the first one. -/
theorem World.PixelQuiet.first {w : World} {k a n : Nat} (h : w.PixelQuiet (2 * k) a n) : w.PixelQuiet k a n :=
  fun i hi => (h i hi).of_le (by omega)

/-- A pixel that is quiet for two commands is quiet for the second one, after the first. -/
theorem World.Moves.pixelQuiet_second {w w' : World} {l : List Access} {k a n : Nat} (m : World.Moves w w' l k)
    (h : w.PixelQuiet (2 * k) a n) : w'.PixelQuiet k a n :=
  fun i hi => m.quiet (Nat.two_mul k ▸ h i hi)

/-- After a first pixel command, a GETPIXEL of the same pixel gives the colour of the bytes that the first one left. -/
theorem exec_getpixel_second {s t : State} {l : List Access} (htouch : s.TouchesRegion) (hsame : s.SamePixel t)
    (m : World.Moves (s.answer none).world t.world l s.fmt.byteCount) (hw : s.world.region.wf = true)
    (hquiet : s.world.PixelQuiet (2 * s.fmt.byteCount) s.pixelOffset s.fmt.byteCount) :
    ∃ u, exec .getpixel t = .next u ∧ u.status = s.status ∧
      u.opr.color = decodePacked (assemble (fun i => t.byte (s.pixelOffset + i)) s.fmt.byteCount) s.fmt := by
  have hquiet' : t.world.PixelQuiet s.fmt.byteCount s.pixelOffset s.fmt.byteCount := m.pixelQuiet_second hquiet
  rw [← hsame.fmt, ← hsame.pixelOffset] at hquiet' ⊢
  obtain ⟨u, he, hopr, -, -, -, hstatus, -⟩ := getpixelInside t (hsame.touchesRegion htouch) (m.wf hw) hquiet'
  exact ⟨u, he, hstatus.trans hsame.status, congrArg OperandRegs.color hopr⟩

/-- Settles O58: the first GETPIXEL leaves the bytes of its pixel, and the second reads them again. -/
theorem getpixelTwice : Obligations.GetpixelTwice := by
  intro s htouch hw hquiet
  obtain ⟨t, p, he, hr, hopr, -, hsame⟩ := exec_getpixel_of_touches htouch
  obtain ⟨-, l, m, -⟩ := World.readPixel_some hr
  obtain ⟨u, he', -, hcolor⟩ := exec_getpixel_second htouch hsame m hw hquiet
  have hfirst : p = assemble (fun i => s.byte (s.pixelOffset + i)) s.fmt.byteCount :=
    World.readPixel_value (w := (s.answer none).world) hr hw hquiet.first
  have hkept : ∀ i < s.fmt.byteCount, t.byte (s.pixelOffset + i) = s.byte (s.pixelOffset + i) :=
    fun i hi => World.readPixel_keep (w := (s.answer none).world) hr hw (hquiet.first i hi)
  exact ⟨t, u, he, he', by rw [hcolor, hopr, hfirst, assemble_congr hkept]⟩

end Sys2Proof.Machine
end

section
/-! SUPPORT. The bits of the channel codec (42_channel_codec.md R101, R102), and the write and read cycle of a pixel
(43_pixel_codec.md R116; 44_pixel_access.md R129). -/

namespace Sys2Proof.Machine

/-! ### The bits of packed and unpacked values -/

theorem pack_getLsbD {c : ChannelSpec} (hlen : c.length.toNat ≤ 16) (v : Half) {i : Nat} (hi : i < 32) :
    (pack c v).getLsbD i =
      (decide (c.offset.toNat ≤ i ∧ i < c.offset.toNat + c.length.toNat) &&
        v.getLsbD (16 - c.length.toNat + (i - c.offset.toNat))) := by
  simp only [pack]
  split
  · simp [show ¬ (c.offset.toNat ≤ i ∧ i < c.offset.toNat + c.length.toNat) by omega]
  · by_cases hcov : c.offset.toNat ≤ i ∧ i < c.offset.toNat + c.length.toNat
    · have hmask := mask_getLsbD 16 c.length.toNat (i - c.offset.toNat) (by omega)
      simp [hi, hcov, hmask, show ¬ i < c.offset.toNat by omega, show i - c.offset.toNat < c.length.toNat by omega,
        show 16 - c.length.toNat + (i - c.offset.toNat) < 32 by omega]
    · have hmask : c.offset.toNat ≤ i → (mask 16 c.length.toNat).getLsbD (i - c.offset.toNat) = false := fun hlow => by
        by_cases hbit : i - c.offset.toNat < 16
        · rw [mask_getLsbD _ _ _ hbit, decide_eq_false (by omega)]
        · exact BitVec.getLsbD_of_ge _ _ (by omega)
      by_cases hlow : c.offset.toNat ≤ i
      · simp [hcov, hmask hlow]
      · simp [hcov, show i < c.offset.toNat by omega]

theorem unpack_of_length_zero {c : ChannelSpec} (h : c.length.toNat = 0) (p : Word) : unpack c p = 0xFFFF := by
  simp only [unpack, h, if_true]

theorem unpack_getLsbD {c : ChannelSpec} (hpos : 1 ≤ c.length.toNat) (hlen : c.length.toNat ≤ 16) (p : Word) {i : Nat}
    (hi : i < 16) :
    (unpack c p).getLsbD i =
      (decide (16 - c.length.toNat ≤ i) && p.getLsbD (c.offset.toNat + (i - (16 - c.length.toNat)))) := by
  have hmask := mask_getLsbD 32 c.length.toNat (i - (16 - c.length.toNat)) (by omega)
  by_cases hlow : 16 - c.length.toNat ≤ i
  · simp [unpack, show c.length.toNat ≠ 0 by omega, hi, hlow, hmask,
      show i - (16 - c.length.toNat) < c.length.toNat by omega]
  · simp [unpack, show c.length.toNat ≠ 0 by omega, hlow, show i < 16 - c.length.toNat by omega]

/-- Packing an unpacked channel gives the bits of the channel back (42_channel_codec.md R106 law 4). -/
theorem pack_unpack_bit {c : ChannelSpec} (hlen : c.length.toNat ≤ 16) (p : Word) {i : Nat} (hi : i < 32) :
    (pack c (unpack c p)).getLsbD i = true ↔ c.covers i ∧ p.getLsbD i = true := by
  rw [pack_getLsbD hlen _ hi, Bool.and_eq_true, decide_eq_true_eq]
  refine and_congr_right fun ⟨hlow, hhigh⟩ => ?_
  have hback : c.offset.toNat + (16 - c.length.toNat + (i - c.offset.toNat) - (16 - c.length.toNat)) = i := by omega
  rw [unpack_getLsbD (by omega) hlen p (by omega), hback, decide_eq_true (Nat.le_add_right _ _), Bool.true_and]

/-- `unpack` reads the bits of its channel alone. -/
theorem unpack_congr {c : ChannelSpec} (hlen : c.length.toNat ≤ 16) {p q : Word}
    (h : ∀ i < 32, c.covers i → p.getLsbD i = q.getLsbD i) : unpack c p = unpack c q := by
  by_cases hzero : c.length.toNat = 0
  · rw [unpack_of_length_zero hzero, unpack_of_length_zero hzero]
  · apply BitVec.eq_of_getLsbD_eq
    intro i hi
    rw [unpack_getLsbD (by omega) hlen p hi, unpack_getLsbD (by omega) hlen q hi]
    by_cases hlow : 16 - c.length.toNat ≤ i
    · by_cases hbit : c.offset.toNat + (i - (16 - c.length.toNat)) < 32
      · rw [h _ hbit ⟨by omega, by omega⟩]
      · rw [BitVec.getLsbD_of_ge p _ (by omega), BitVec.getLsbD_of_ge q _ (by omega)]
    · simp [hlow]

/-! ### Formats of legal lengths -/

/-- `decode` reads the bits of its channels alone. -/
theorem decodePacked_congr {f : PixelFormat} (hlen : ∀ ch, (f.channel ch).length.toNat ≤ 16) {p q : Word}
    (h : ∀ i < 32, (∃ ch, (f.channel ch).covers i) → p.getLsbD i = q.getLsbD i) :
    decodePacked p f = decodePacked q f := by
  have hch : ∀ ch, unpack (f.channel ch) p = unpack (f.channel ch) q :=
    fun ch => unpack_congr (hlen ch) fun i hi hcov => h i hi ⟨ch, hcov⟩
  simp only [decodePacked, Color.mk.injEq]
  exact ⟨hch .red, hch .green, hch .blue, hch .alpha⟩

theorem Channel.exists_iff {P : Channel → Prop} : (∃ ch, P ch) ↔ ((P .red ∨ P .green) ∨ P .blue) ∨ P .alpha := by
  constructor
  · rintro ⟨ch, h⟩
    cases ch <;> simp [h]
  · rintro (((h | h) | h) | h) <;> exact ⟨_, h⟩

/-- Encoding a decoded pixel gives the bits of the channels back (43_pixel_codec.md R115). -/
theorem encodeColor_decodePacked_bit {f : PixelFormat} (hlen : ∀ ch, (f.channel ch).length.toNat ≤ 16) (p : Word)
    {i : Nat} (hi : i < 32) :
    (encodeColor (decodePacked p f) f).getLsbD i = true ↔
      (∃ ch, (f.channel ch).covers i) ∧ p.getLsbD i = true := by
  have hch : ∀ ch, (pack (f.channel ch) (unpack (f.channel ch) p)).getLsbD i = true ↔
      (f.channel ch).covers i ∧ p.getLsbD i = true := fun ch => pack_unpack_bit (hlen ch) p hi
  rw [Channel.exists_iff]
  simp only [encodeColor, decodePacked, BitVec.getLsbD_or, Bool.or_eq_true, or_and_right]
  exact or_congr (or_congr (or_congr (hch .red) (hch .green)) (hch .blue)) (hch .alpha)

/-- The bytes of a packed pixel put together again: the bits above the pixel are dropped (44_pixel_access.md R126). -/
theorem assemble_disassemble (p : Word) (n : Nat) : assemble (disassemble p) n = p &&& mask 32 (8 * n) := by
  apply BitVec.eq_of_getLsbD_eq
  intro i hi
  rw [assemble_getLsbD _ _ _ hi, disassemble_getLsbD, BitVec.getLsbD_and, mask_getLsbD _ _ _ hi, Nat.div_add_mod]
  simp [Nat.mod_lt, Bool.and_comm]

/-- Under `ChannelsFit` the bits that a pixel of `n` bytes drops belong to no channel (43_pixel_codec.md R116). -/
theorem decodePacked_mask_of_channelsFit {f : PixelFormat} (hlen : ∀ ch, (f.channel ch).length.toNat ≤ 16)
    (hfit : f.ChannelsFit) (p : Word) : decodePacked (p &&& mask 32 (8 * f.byteCount)) f = decodePacked p f := by
  refine decodePacked_congr hlen fun i hi ⟨ch, hlow, hhigh⟩ => ?_
  have hin := hfit ch (by omega)
  simp [mask_getLsbD _ _ _ hi, show i < 8 * f.byteCount by omega]

/-- Writing a colour that was read gives that colour again (43_pixel_codec.md R116). -/
theorem decodePacked_mask_idem {f : PixelFormat} (hlen : ∀ ch, (f.channel ch).length.toNat ≤ 16) (p : Word) (n : Nat) :
    decodePacked (encodeColor (decodePacked (p &&& mask 32 n) f) f &&& mask 32 n) f =
      decodePacked (p &&& mask 32 n) f := by
  refine decodePacked_congr hlen fun i hi hcov => ?_
  rw [Bool.eq_iff_iff, BitVec.getLsbD_and, Bool.and_eq_true, encodeColor_decodePacked_bit hlen _ hi, BitVec.getLsbD_and,
    Bool.and_eq_true]
  exact ⟨fun ⟨⟨_, h⟩, _⟩ => h, fun h => ⟨⟨hcov, h⟩, h.2⟩⟩

/-! ### The cycle -/

/-- Settles O56: the GETPIXEL reads the bytes that the SETPIXEL stored, which are the low bytes of the encoded colour. -/
theorem writeThenRead : Obligations.WriteThenRead := by
  intro s hok htouch hw hquiet
  obtain ⟨-, hbuffer, -⟩ := id htouch
  obtain ⟨hlen, -⟩ := hok.format_legal (hok.buffer_has_format hbuffer)
  obtain ⟨t, he, hr, -, -, hsame⟩ := exec_setpixel_of_touches htouch
  obtain ⟨-, l, m, -⟩ := World.writePixel_some hr
  obtain ⟨u, he', hstatus, hcolor⟩ := exec_getpixel_second htouch hsame m hw hquiet
  have hstored : ∀ i < s.fmt.byteCount,
      t.byte (s.pixelOffset + i) = disassemble (encodeColor s.opr.color s.fmt) i := fun i hi => by
    have hread := World.writePixel_read (w := (s.answer none).world) hr hw (hquiet.first i hi)
    rwa [if_pos ⟨Nat.le_add_right _ i, Nat.add_lt_add_left hi _⟩, Nat.add_sub_cancel_left] at hread
  rw [assemble_congr hstored, assemble_disassemble] at hcolor
  refine ⟨t, u, he, he', hstatus, hcolor, fun hfit => ?_, ?_⟩
  · rw [hcolor, decodePacked_mask_of_channelsFit hlen hfit]
  · rw [hcolor, decodePacked_mask_idem hlen]

end Sys2Proof.Machine
end

section
/-! SUPPORT. Schedules that show one behaviour (20_memory.md R47, R48): every order of the bytes of a pixel, and the
environment between two byte accesses. -/

namespace Sys2Proof.Machine

/-! ### Slots of given places -/

/-- A slot in which the environment does nothing. -/
def quietSlot (place : Nat) : Slot := { place := place, acts := [] }

/-- Slots in which the environment acts once: just before the byte access that `before.length` others precede. -/
def slotsAround (before : List Nat) (place : Nat) (after : List Nat) (acts : List EnvAction) : List Slot :=
  before.map quietSlot ++ { place := place, acts := acts } :: after.map quietSlot

theorem quietSlots_places (places : List Nat) : (places.map quietSlot).map Slot.place = places := by
  simp [Function.comp_def, quietSlot]

theorem slotsAround_places (before : List Nat) (place : Nat) (after : List Nat) (acts : List EnvAction) :
    (slotsAround before place after acts).map Slot.place = before ++ place :: after := by
  simp only [slotsAround, List.map_append, List.map_cons, quietSlots_places]

theorem exists_around {places : List Nat} {k : Nat} (h : k < places.length) :
    ∃ before place after, places = before ++ place :: after ∧ before.length = k :=
  ⟨places.take k, places[k], places.drop (k + 1), by simp, by simp; omega⟩

theorem quietSlots_acts {places : List Nat} {n : Nat} {slot : Slot} (h : slot ∈ (places.map quietSlot).take n) :
    slot.acts = [] := by
  obtain ⟨place, -, rfl⟩ := List.mem_map.mp (List.mem_of_mem_take h)
  rfl

theorem World.nextSlot_cons {w : World} {slot : Slot} {rest : List Slot} (h : w.schedule = slot :: rest) :
    w.nextSlot = slot.acts.foldl World.environmentAct { w with schedule := rest } := by
  simp only [World.nextSlot, h]

theorem World.nextSlot_quietSlot {w : World} (h : ∀ slot ∈ w.schedule.take 1, slot.acts = []) :
    w.nextSlot = { w with schedule := w.schedule.drop 1 } := by
  cases hs : w.schedule with
  | nil =>
    simp only [World.nextSlot, hs, List.drop_nil]
    rw [← hs]
  | cons slot rest =>
    rw [World.nextSlot_cons hs, h slot (by simp [hs])]
    rfl

theorem slotsAround_split {slots : List Slot} {before after first : List Nat} {place : Nat} {acts : List EnvAction}
    (h : slots = slotsAround before place after acts) (hl : before.length = first.length) :
    (∀ slot ∈ slots.take first.length, slot.acts = []) ∧
      slots.drop first.length = { place := place, acts := acts } :: after.map quietSlot := by
  have hlen : first.length = (before.map quietSlot).length := by rw [List.length_map, hl]
  rw [h, slotsAround, hlen, List.drop_left, List.take_left]
  refine ⟨fun slot hm => ?_, rfl⟩
  obtain ⟨_, -, rfl⟩ := List.mem_map.mp hm
  rfl

/-! ### The pixel's bytes in the order of the schedule -/

theorem World.readPixel_eq {w w' : World} {a n : Nat} {p : Word} (h : w.readPixel a n = some (w', p)) :
    w' = (World.readBytes (arrange w.places (pixelOffsets a n)) w).1 ∧
      p = assemble (fun i => byteAt (World.readBytes (arrange w.places (pixelOffsets a n)) w).2 (a + i)) n := by
  rw [World.readPixel, if_pos (World.readPixel_some h).1] at h
  cases h
  exact ⟨rfl, rfl⟩

theorem World.writePixel_eq {w w' : World} {a n : Nat} {p : Word} (h : w.writePixel a n p = some w') :
    w' = World.writeBytes (arrange w.places (pixelCells a n p)) w := by
  rw [World.writePixel, if_pos (World.writePixel_some h).1] at h
  cases h
  rfl

/-- The bytes of a packed pixel, by their offsets. -/
theorem pixelCells_eq_map (a n : Nat) (p : Word) :
    pixelCells a n p = (pixelOffsets a n).map fun o => (o, disassemble p (o - a)) := by
  simp [pixelCells, pixelOffsets]

theorem World.readPixel_order {w w' : World} {a n : Nat} {p : Word} (h : w.readPixel a n = some (w', p)) :
    ∃ l, w'.traffic = w.traffic ++ l ∧ (unitAccesses l).map Access.off = arrange w.places (pixelOffsets a n) := by
  obtain ⟨-, l, m, -, hl⟩ := World.readPixel_some h
  refine ⟨l, m.traffic, ?_⟩
  simpa [Function.comp_def] using congrArg (List.map Prod.snd) hl

theorem World.writePixel_order {w w' : World} {a n : Nat} {p : Word} (h : w.writePixel a n p = some w') :
    ∃ l, w'.traffic = w.traffic ++ l ∧ (unitAccesses l).map Access.off = arrange w.places (pixelOffsets a n) := by
  obtain ⟨-, l, m, -, hl⟩ := World.writePixel_some h
  refine ⟨l, m.traffic, ?_⟩
  rw [← pixelCells_offsets a n p, arrange_map]
  simpa [Function.comp_def] using congrArg (List.map fun c => c.2.1) hl

/-- The world with another schedule, as a WR finds it. -/
def World.scheduled (w : World) (slots : List Slot) : World := { w with schedule := slots, response := none }

theorem exec_getpixel_withSchedule {s : State} (h : s.TouchesRegion) (slots : List Slot) :
    ∃ t p, exec .getpixel (s.withSchedule slots) = .next t ∧
      (s.world.scheduled slots).readPixel s.pixelOffset s.fmt.byteCount = some (t.world, p) ∧
      t.opr.color = decodePacked p s.fmt := by
  obtain ⟨t, p, he, hr, hopr, -⟩ := exec_getpixel_of_touches (s := s.withSchedule slots) h
  exact ⟨t, p, he, hr, congrArg OperandRegs.color hopr⟩

theorem exec_setpixel_withSchedule {s : State} (h : s.TouchesRegion) (slots : List Slot) :
    ∃ t, exec .setpixel (s.withSchedule slots) = .next t ∧
      (s.world.scheduled slots).writePixel s.pixelOffset s.fmt.byteCount (encodeColor s.opr.color s.fmt) =
        some t.world := by
  obtain ⟨t, he, hr, -⟩ := exec_setpixel_of_touches (s := s.withSchedule slots) h
  exact ⟨t, he, hr⟩

/-- Settles O53: the places that give the order are those of quiet slots, and both commands follow them. -/
theorem everyByteOrder : Obligations.EveryByteOrder := by
  intro s order htouch hperm
  obtain ⟨places, -, harrange⟩ := arrange_exists hperm
  rw [← quietSlots_places places] at harrange
  refine ⟨places.map quietSlot, fun i hi => ?_⟩
  obtain rfl | rfl := hi
  · obtain ⟨t, p, he, hr, -⟩ := exec_getpixel_withSchedule htouch (places.map quietSlot)
    obtain ⟨l, htraffic, hl⟩ := World.readPixel_order hr
    exact ⟨t, l, he, htraffic, hl.trans harrange⟩
  · obtain ⟨t, he, hr⟩ := exec_setpixel_withSchedule htouch (places.map quietSlot)
    obtain ⟨l, htraffic, hl⟩ := World.writePixel_order hr
    exact ⟨t, l, he, htraffic, hl.trans harrange⟩

theorem World.admitsPixel.admits {w : World} {a n o : Nat} (h : w.admitsPixel a n) (ho : o ∈ pixelOffsets a n) :
    w.admits o :=
  Nat.lt_of_lt_of_le (mem_pixelOffsets.mp ho).2 (Nat.le_of_not_lt h)

/-! ### A pixel seen half written -/

theorem World.writeBytes_append (cells₁ cells₂ : List Host.Cell) (w : World) :
    World.writeBytes (cells₁ ++ cells₂) w = World.writeBytes cells₂ (World.writeBytes cells₁ w) := by
  induction cells₁ generalizing w with
  | nil => rfl
  | cons c cells ih => simp only [List.cons_append, World.writeBytes, ih]

/-- Byte writes whose slots give the environment nothing to do: only the writes are seen. -/
theorem World.writeBytes_alone (offs : List Nat) (f : Nat → Byte) (w : World)
    (h : ∀ slot ∈ w.schedule.take offs.length, slot.acts = []) :
    World.writeBytes (offs.map fun o => (o, f o)) w =
      { w with
        schedule := w.schedule.drop offs.length
        region := offs.foldl (fun m o => m.write o (f o)) w.region
        traffic := w.traffic ++ offs.map fun o => { agent := .unit, kind := .write, off := o, val := f o } } := by
  induction offs generalizing w with
  | nil => simp [World.writeBytes]
  | cons off offs ih =>
    have hnow : ∀ slot ∈ w.schedule.take 1, slot.acts = [] := fun slot hm =>
      h slot (List.take_subset_take_left _ (by simp) hm)
    have hlater : ∀ slot ∈ (w.schedule.drop 1).take offs.length, slot.acts = [] := fun slot hm =>
      h slot (List.mem_of_mem_drop (i := 1) (by rwa [List.length_cons, List.drop_take, Nat.add_sub_cancel]))
    simp only [List.map_cons, World.writeBytes, World.nextSlot_quietSlot hnow]
    rw [ih _ hlater]
    simp [World.memWrite, World.observe]

/-- The environment's reads at admitted offsets: all are seen, in their order, and the region stays. -/
theorem World.environmentReads (offs : List Nat) (w : World) (ha : ∀ o ∈ offs, w.admits o) :
    (offs.map EnvAction.read).foldl World.environmentAct w =
      { w with
        traffic := w.traffic ++
          offs.map fun o => { agent := .environment, kind := .read, off := o, val := w.region.read o } } := by
  induction offs generalizing w with
  | nil => simp
  | cons off offs ih =>
    have hread : w.environmentAct (.read off) = w.memRead .environment off := by
      simp only [World.environmentAct, ha off List.mem_cons_self, if_true]
    simp only [List.map_cons, List.foldl_cons, hread]
    rw [ih (w.memRead .environment off) fun o ho => ha o (List.mem_cons_of_mem _ ho)]
    simp [World.memRead, World.observe]

theorem seenByEnvironment_append (l₁ l₂ : List Access) :
    seenByEnvironment (l₁ ++ l₂) = seenByEnvironment l₁ ++ seenByEnvironment l₂ := by
  simp [seenByEnvironment]

theorem seenByEnvironment_unitWrites (offs : List Nat) (f : Nat → Byte) :
    seenByEnvironment (offs.map fun o => { agent := .unit, kind := .write, off := o, val := f o }) = [] := by
  simp [seenByEnvironment]

theorem seenByEnvironment_reads (offs : List Nat) (f : Nat → Byte) :
    seenByEnvironment (offs.map fun o => { agent := .environment, kind := .read, off := o, val := f o }) =
      offs.map fun o => (o, f o) := by
  simp [seenByEnvironment, List.filter_map, Function.comp_def]

theorem World.nextSlot_reads {w : World} {place : Nat} {seen : List Nat} {slots : List Slot}
    (h : w.schedule = { place := place, acts := seen.map EnvAction.read } :: slots) (ha : ∀ o ∈ seen, w.admits o) :
    w.nextSlot =
      { w with
        schedule := slots
        traffic := w.traffic ++
          seen.map fun o => { agent := .environment, kind := .read, off := o, val := w.region.read o } } := by
  rw [World.nextSlot_cons h]
  exact World.environmentReads seen { w with schedule := slots } ha

/-- What the environment sees when it reads behind the byte writes `first`, before the others. -/
theorem World.writeBytes_seen {w : World} {before after first rest seen : List Nat} {place off : Nat} (f : Nat → Byte)
    (hs : w.schedule = slotsAround before place after (seen.map EnvAction.read)) (hl : before.length = first.length)
    (ha : ∀ o ∈ seen, w.admits o) :
    ∃ l, (World.writeBytes ((first ++ off :: rest).map fun o => (o, f o)) w).traffic = w.traffic ++ l ∧
      seenByEnvironment l = seen.map fun o => (o, (first.foldl (fun m o => m.write o (f o)) w.region).read o) := by
  obtain ⟨hquiet, hdrop⟩ := slotsAround_split hs hl
  rw [List.map_append, World.writeBytes_append, World.writeBytes_alone first f w hquiet, List.map_cons,
    World.writeBytes, World.nextSlot_reads hdrop (by exact ha),
    World.writeBytes_alone rest f _ fun _ hm => quietSlots_acts hm]
  refine ⟨(first.map fun o => ⟨.unit, .write, o, f o⟩) ++ ((seen.map fun o => ⟨.environment, .read, o,
    (first.foldl (fun m o => m.write o (f o)) w.region).read o⟩) ++ ((off :: rest).map fun o => ⟨.unit, .write, o, f o⟩)),
    ?_, ?_⟩
  · simp only [World.memWrite, World.observe, List.append_assoc, List.map_cons, List.singleton_append]
  · simp only [seenByEnvironment_append, seenByEnvironment_unitWrites, seenByEnvironment_reads, List.nil_append,
      List.append_nil]

/-- A list of slots that gives an order of a pixel's bytes and lets the environment act once, behind the bytes `first`
of that order (20_memory.md R47, R48). -/
theorem exists_slotsAround {offs first rest : List Nat} {off : Nat} (h : (first ++ off :: rest).Perm offs)
    (acts : List EnvAction) :
    ∃ before place after, before.length = first.length ∧
      arrange ((slotsAround before place after acts).map Slot.place) offs = first ++ off :: rest := by
  obtain ⟨places, hlen, harrange⟩ := arrange_exists h
  have hk : first.length < places.length := by
    rw [hlen, ← h.length_eq, List.length_append, List.length_cons]
    omega
  obtain ⟨before, place, after, rfl, hl⟩ := exists_around hk
  exact ⟨before, place, after, hl, (slotsAround_places before place after acts).symm ▸ harrange⟩

/-- What the environment sees when it reads the pixel behind the byte writes `first`, before the others: these bytes new,
the others old. -/
theorem World.writePixel_seen {w w' : World} {a n : Nat} {p : Word} {before after first rest : List Nat}
    {place off : Nat} (h : w.writePixel a n p = some w') (hw : w.region.wf = true)
    (hs : w.schedule = slotsAround before place after ((pixelOffsets a n).map EnvAction.read))
    (hl : before.length = first.length) (horder : arrange w.places (pixelOffsets a n) = first ++ off :: rest) :
    ∃ l, w'.traffic = w.traffic ++ l ∧
      seenByEnvironment l =
        (pixelOffsets a n).map fun o => (o, if o ∈ first then disassemble p (o - a) else w.region.read o) := by
  obtain ⟨hfits, -⟩ := World.writePixel_some h
  rw [World.writePixel_eq h, pixelCells_eq_map, arrange_map, horder]
  simp only [← Memory.read_writes first (fun o => disassemble p (o - a)) hw]
  exact World.writeBytes_seen _ hs hl fun o ho => hfits.admits ho

/-- Of the bytes of a pixel some that are chosen, but not all, can stand first. -/
theorem exists_order_first (a : Nat) {n j : Nat} {new : Nat → Bool} (hj : j < n) (hold : new j = false) :
    ∃ first off rest, (first ++ off :: rest).Perm (pixelOffsets a n) ∧
      ∀ i < n, (a + i ∈ first ↔ new i = true) := by
  have hlast : a + j ∈ (pixelOffsets a n).filter fun o => !new (o - a) := by simp [mem_pixelOffsets, hj, hold]
  obtain ⟨off, rest, hcons⟩ := List.exists_cons_of_ne_nil (List.ne_nil_of_mem hlast)
  refine ⟨(pixelOffsets a n).filter fun o => new (o - a), off, rest, ?_, fun i hi => ?_⟩
  · exact hcons ▸ List.filter_append_perm (fun o => new (o - a)) (pixelOffsets a n)
  · simp [mem_pixelOffsets, hi]

/-- Settles O54: the new bytes are written first, and the environment reads the pixel before the next one, which exists
because not all bytes are new. -/
theorem partialPixelSeen : Obligations.PartialPixelSeen := by
  intro s new htouch hw ⟨j, hj, hold⟩
  obtain ⟨first, off, rest, hperm, hfirst⟩ := exists_order_first s.pixelOffset hj hold
  obtain ⟨before, place, after, hl, horder⟩ :=
    exists_slotsAround hperm ((pixelOffsets s.pixelOffset s.fmt.byteCount).map EnvAction.read)
  obtain ⟨t, he, hr⟩ := exec_setpixel_withSchedule htouch _
  obtain ⟨l, htraffic, hseen⟩ := World.writePixel_seen hr hw rfl hl horder
  refine ⟨_, t, l, he, htraffic, hseen.trans ?_⟩
  rw [pixelOffsets, List.map_map]
  refine List.map_congr_left fun i hi => ?_
  simp only [Function.comp_apply, hfirst i (List.mem_range.mp hi), Nat.add_sub_cancel_left]
  rfl

/-! ### A torn read -/

theorem World.nextSlot_writes {w : World} {place : Nat} {written : List Nat} {f : Nat → Byte} {slots : List Slot}
    (h : w.schedule = { place := place, acts := written.map fun o => EnvAction.write o (f o) } :: slots)
    (hm : w.envMayWrite = true) (ha : ∀ o ∈ written, w.admits o) :
    w.nextSlot =
      { w with
        schedule := slots
        region := written.foldl (fun m o => m.write o (f o)) w.region
        traffic := w.traffic ++
          written.map fun o => { agent := .environment, kind := .write, off := o, val := f o } } := by
  rw [World.nextSlot_cons h]
  exact World.environmentWrites written f { w with schedule := slots } hm ha

/-- The byte reads of a pixel when the environment writes behind the reads `first`, before the others. -/
theorem World.readBytes_torn {w : World} {before after first rest written : List Nat} {place off : Nat}
    {f : Nat → Byte}
    (hs : w.schedule = slotsAround before place after (written.map fun o => EnvAction.write o (f o)))
    (hl : before.length = first.length) (hm : w.envMayWrite = true) (ha : ∀ o ∈ written, w.admits o) {m : Memory}
    (hmem : m = written.foldl (fun m o => m.write o (f o)) w.region) :
    (World.readBytes (first ++ off :: rest) w).1.traffic = w.traffic ++
        (first.map (fun o => { agent := .unit, kind := .read, off := o, val := w.region.read o }) ++
          written.map (fun o => { agent := .environment, kind := .write, off := o, val := f o }) ++
          (off :: rest).map (fun o => { agent := .unit, kind := .read, off := o, val := m.read o })) ∧
      (World.readBytes (first ++ off :: rest) w).2 =
        first.map (fun o => (o, w.region.read o)) ++ (off :: rest).map fun o => (o, m.read o) := by
  obtain ⟨hquiet, hdrop⟩ := slotsAround_split hs hl
  rw [World.readBytes_append, World.readBytes_alone first w hquiet, World.readBytes,
    World.nextSlot_writes hdrop (by exact hm) (by exact ha),
    World.readBytes_alone rest _ fun _ hm => quietSlots_acts hm, hmem]
  constructor
  · simp only [World.memRead, World.observe, List.append_assoc, List.map_cons, List.singleton_append]
  · simp only [World.memRead, World.observe, List.map_cons]

theorem byteAt_append (offs : List Nat) (f : Nat → Byte) (cells : List Host.Cell) (x : Nat) :
    byteAt (offs.map (fun o => (o, f o)) ++ cells) x = if x ∈ offs then f x else byteAt cells x := by
  induction offs with
  | nil => simp
  | cons o offs ih =>
    simp only [byteAt, List.map_cons, List.cons_append, Memory.read] at ih ⊢
    rw [ih]
    by_cases hx : x = o
    · simp [hx]
    · simp [hx]

/-- A pixel read when the environment writes the whole pixel behind the reads `first`, before the others: the bytes
`first` are old, the others are new (20_memory.md R47). -/
theorem World.readPixel_torn {w w' : World} {a n : Nat} {p : Word} {before after first rest : List Nat}
    {place off : Nat} {f : Nat → Byte} (h : w.readPixel a n = some (w', p)) (hw : w.region.wf = true)
    (hs : w.schedule =
      slotsAround before place after ((pixelOffsets a n).map fun o => EnvAction.write o (f o)))
    (hl : before.length = first.length) (horder : arrange w.places (pixelOffsets a n) = first ++ off :: rest)
    (hm : w.envMayWrite = true) :
    w'.traffic = w.traffic ++
        (first.map (fun o => { agent := .unit, kind := .read, off := o, val := w.region.read o }) ++
          (pixelOffsets a n).map (fun o => { agent := .environment, kind := .write, off := o, val := f o }) ++
          (off :: rest).map (fun o => { agent := .unit, kind := .read, off := o, val := f o })) ∧
      p = assemble (fun i => if a + i ∈ first then w.region.read (a + i) else f (a + i)) n := by
  have hmem : ∀ o, o ∈ first ++ off :: rest ↔ o ∈ pixelOffsets a n := fun o =>
    horder ▸ (arrange_perm w.places (pixelOffsets a n)).mem_iff
  have hnew : ∀ o ∈ off :: rest,
      ((pixelOffsets a n).foldl (fun m o => m.write o (f o)) w.region).read o = f o := fun o ho =>
    (Memory.read_writes _ f hw o).trans (if_pos ((hmem o).mp (List.mem_append_right _ ho)))
  obtain ⟨hfits, -⟩ := World.readPixel_some h
  obtain ⟨htraffic, hcells⟩ := World.readBytes_torn (rest := rest) (off := off) hs hl hm
    (fun o ho => hfits.admits ho) rfl
  obtain ⟨rfl, rfl⟩ := World.readPixel_eq h
  rw [horder, hcells, htraffic]
  refine ⟨?_, assemble_congr fun i hi => ?_⟩
  · congr 2
    exact List.map_congr_left fun o ho => congrArg (Access.mk .unit .read o) (hnew o ho)
  · rw [byteAt_append]
    split
    · rfl
    · rename_i hfirst
      have hin : a + i ∈ first ++ off :: rest := (hmem _).mpr (mem_pixelOffsets.mpr ⟨Nat.le_add_right a i, by omega⟩)
      have hrest := (List.mem_append.mp hin).resolve_left hfirst
      rw [byteAt_map hrest, hnew _ hrest]

/-- A read torn behind the first `k` bytes of an order, for every `k` below the number of bytes. -/
theorem exists_torn_read {s : State} (new : Nat → Byte) (htouch : s.TouchesRegion) (hw : s.world.region.wf = true)
    (hm : s.world.envMayWrite = true) {order : List Nat} {k : Nat}
    (hperm : order.Perm (pixelOffsets s.pixelOffset s.fmt.byteCount)) (hk : k < s.fmt.byteCount) :
    ∃ slots t, exec .getpixel (s.withSchedule slots) = .next t ∧
      t.world.traffic = s.world.traffic ++
        ((order.take k).map (fun o => { agent := .unit, kind := .read, off := o, val := s.byte o }) ++
          (pixelOffsets s.pixelOffset s.fmt.byteCount).map
            (fun o => { agent := .environment, kind := .write, off := o, val := new o }) ++
          (order.drop k).map (fun o => { agent := .unit, kind := .read, off := o, val := new o })) ∧
      t.opr.color = decodePacked
        (assemble (fun i => if s.pixelOffset + i ∈ order.take k then s.byte (s.pixelOffset + i)
          else new (s.pixelOffset + i)) s.fmt.byteCount) s.fmt := by
  have hlt : k < order.length := by rwa [hperm.length_eq, pixelOffsets_length]
  have hdrop : order.drop k = order[k] :: order.drop (k + 1) := List.drop_eq_getElem_cons hlt
  rw [← List.take_append_drop k order, hdrop] at hperm
  obtain ⟨before, place, after, hl, horder⟩ := exists_slotsAround hperm
    ((pixelOffsets s.pixelOffset s.fmt.byteCount).map fun o => EnvAction.write o (new o))
  obtain ⟨t, p, he, hr, hcolor⟩ := exec_getpixel_withSchedule htouch _
  obtain ⟨htraffic, hp⟩ := World.readPixel_torn hr hw rfl hl horder hm
  rw [← hdrop] at htraffic
  exact ⟨_, t, he, htraffic, hp ▸ hcolor⟩

/-- Settles O55: a read torn behind `k` bytes, and for the first clause one torn behind none, of a pixel that has
bytes. -/
theorem tornReadPossible : Obligations.TornReadPossible := by
  intro s new htouch hw hm
  refine ⟨?_, fun order k hperm _ hk => exists_torn_read new htouch hw hm hperm hk⟩
  rcases Nat.eq_zero_or_pos s.fmt.byteCount with hn | hn
  · obtain ⟨t, p, he, hr, hcolor⟩ := exec_getpixel_withSchedule htouch []
    obtain ⟨-, rfl⟩ := World.readPixel_eq hr
    exact ⟨[], t, he, hcolor.trans (congrArg (decodePacked · _) (assemble_congr fun i hi => by omega))⟩
  · obtain ⟨slots, t, he, -, hcolor⟩ := exists_torn_read new htouch hw hm (.refl _) hn
    exact ⟨slots, t, he, by simpa using hcolor⟩

end Sys2Proof.Machine
end

section
/-! SUPPORT. The decoder from the side of the word (30_encoding.md R60 to R66): which words are commands, what each
transaction is made of, and so what every transaction decodes to. -/

namespace Sys2Proof

/-! ### The 14 command words -/

/-- The commands, in the order in which 30_encoding.md R64 lists their words. -/
def listedCommands : List Command :=
  [.fmtset, .bufset, .pack .red, .pack .green, .pack .blue, .pack .alpha, .unpack .red, .unpack .green, .unpack .blue,
   .unpack .alpha, .encode, .decode, .getpixel, .setpixel]

theorem commandWords_eq_map : commandWords = listedCommands.map encodeCommand := by decide

theorem mem_commandWords_iff {w : Word} : w ∈ commandWords ↔ ∃ c, encodeCommand c = w := by
  constructor
  · intro h
    rw [commandWords_eq_map] at h
    obtain ⟨c, -, hc⟩ := List.mem_map.mp h
    exact ⟨c, hc⟩
  · rintro ⟨c, rfl⟩
    exact encodeCommand_mem_commandWords c

/-- The only verdict on a command word besides a command is ILLEGAL (30_encoding.md R66). -/
theorem decodeCommand_error {w : Word} {e : DecodeError} (h : decodeCommand w = .error e) : e = .illegalCommand := by
  simp only [decodeCommand] at h
  split_ifs at h <;> cases h <;> rfl

theorem decodeCommand_of_not_mem {w : Word} (h : w ∉ commandWords) : decodeCommand w = .error .illegalCommand := by
  cases hd : decodeCommand w with
  | error e => rw [decodeCommand_error hd]
  | ok c => exact absurd (mem_commandWords_iff.mpr ⟨c, (decodeCommand_ok hd).symm⟩) h

/-! ### The fields that make up a transaction -/

theorem decode_of_rd {t : Transaction} (h : t.getLsbD 40 = false) : decode t = .rd (t.extractLsb' 32 8) := by
  simp only [decode, h, if_true]

/-- A RD built from the fields of any transaction keeps the field ADDR alone. -/
theorem rdTransaction_extractLsb' (t : Transaction) : rdTransaction (t.extractLsb' 32 8) = t &&& 0x0FF00000000 := by
  rw [rdTransaction, fieldAt_extractLsb', show fieldAt 41 40 0#1 = 0#41 from rfl, BitVec.zero_or]
  rfl

/-- The fields WE, ADDR and WDATA cover the 41 bits, so a transaction with WE set is the WR of its fields. -/
theorem eq_wrTransaction {t : Transaction} (h : t.getLsbD 40 = true) :
    t = wrTransaction (t.extractLsb' 32 8) (t.extractLsb' 0 32) := by
  have hwe : 1#1 = t.extractLsb' 40 1 := by rw [← flagBit_getLsbD, h]; rfl
  rw [wrTransaction, hwe, fieldAt_extractLsb', fieldAt_extractLsb', fieldAt_extractLsb', ← BitVec.and_or_distrib_left,
    ← BitVec.and_or_distrib_left]
  exact BitVec.and_allOnes.symm

/-! ### What a transaction decodes to -/

theorem encode_instrOfCommand (c : Command) : encode (instrOfCommand c) = wrTransaction 0x1F (encodeCommand c) := by
  cases c <;> rfl

theorem instrOfCommand_wellFormed (c : Command) : (instrOfCommand c).wellFormed = true := by
  cases c <;> rfl

/-- Everything a WR can decode to: itself when it is well-formed, and otherwise the command that it spells. -/
theorem decode_wrTransaction_cases (addr : RegNumber) (w : Word) :
    ((Instr.wr addr w).wellFormed = true ∧ decode (wrTransaction addr w) = .wr addr w) ∨
    (∃ c, addr = 0x1F ∧ w = encodeCommand c ∧ decode (wrTransaction addr w) = instrOfCommand c) := by
  by_cases hwf : (Instr.wr addr w).wellFormed = true
  · exact .inl ⟨hwf, decode_wrTransaction_of_wellFormed hwf⟩
  · rw [wellFormed_wr_iff, Classical.not_imp, not_not] at hwf
    obtain ⟨rfl, hmem⟩ := hwf
    obtain ⟨c, rfl⟩ := mem_commandWords_iff.mp hmem
    exact .inr ⟨c, rfl, rfl, decode_wrTransaction_encodeCommand c⟩

theorem encode_decode_wrTransaction (addr : RegNumber) (w : Word) :
    encode (decode (wrTransaction addr w)) = wrTransaction addr w := by
  obtain ⟨-, hd⟩ | ⟨c, rfl, rfl, hd⟩ := decode_wrTransaction_cases addr w
  · rw [hd, encode]
  · rw [hd, encode_instrOfCommand]

theorem decode_wrTransaction_wellFormed (addr : RegNumber) (w : Word) :
    (decode (wrTransaction addr w)).wellFormed = true := by
  obtain ⟨hwf, hd⟩ | ⟨c, -, -, hd⟩ := decode_wrTransaction_cases addr w
  · rwa [hd]
  · rw [hd, instrOfCommand_wellFormed]

/-! ### The obligations about the encoding -/

/-- Settles O1, by the decoder's lemma for each kind of transaction that the encoder emits. -/
theorem decodeEncode : Obligations.DecodeEncode := fun _ => decode_encode

/-- Settles O2: a WR is made of its fields, and a RD keeps the field ADDR alone. -/
theorem encodeDecode : Obligations.EncodeDecode := by
  intro t
  constructor
  · intro hwr
    rw [eq_wrTransaction hwr, encode_decode_wrTransaction]
  · intro hrd
    rw [decode_of_rd hrd, encode, rdTransaction_extractLsb']

/-- Settles O3, by the kind of the transaction: a RD always has its own encoding, a WR by what it can decode to. -/
theorem decodedIsWellFormed : Obligations.DecodedIsWellFormed := by
  intro t
  cases hwe : t.getLsbD 40 with
  | false => rw [decode_of_rd hwe, Instr.wellFormed]
  | true => rw [eq_wrTransaction hwe, decode_wrTransaction_wellFormed]

/-- Settles O4: the listed words are the words of the commands, and a command is decoded only from its own word. -/
theorem legalCommandWords : Obligations.LegalCommandWords := by
  intro w
  refine ⟨fun hmem => ?_, decodeCommand_of_not_mem⟩
  obtain ⟨c, rfl⟩ := mem_commandWords_iff.mp hmem
  exact ⟨c, decodeCommand_encodeCommand c, rfl⟩

/-- Settles O5: each word is the one that the encoder emits for the instruction, so the round trip decodes it. -/
theorem wordsDecode : Obligations.WordsDecode :=
  ⟨decode_encode (i := .wr 0x01 0x00000506) rfl, decode_encode (i := .rd 0x1E) rfl, decode_encode (i := .fmtset) rfl,
    decode_encode (i := .unpack .alpha) rfl, decode_encode (i := .encode) rfl, decode_encode (i := .setpixel) rfl⟩

namespace Machine

/-! ### A WR to CMD -/

theorem exec_wr_cmd (w : Word) (s : State) : exec (.wr 0x1F w) s = acceptWrite (commandEffect w) s := rfl

theorem commandEffect_of_error {w : Word} {e : DecodeError} (h : decodeCommand w = .error e) (s : State) :
    commandEffect w s = takeFault .illegalCommand s := by
  simp only [commandEffect, h]

/-- Settles O27: a word that is none of the 14 is ILLEGAL, and on a unit that is not halted that verdict is the fault. -/
theorem wrIllegalCommand : Obligations.WrIllegalCommand := by
  intro s w hf hmem
  rw [exec_wr_cmd, acceptWrite_running _ s hf, commandEffect_of_error (decodeCommand_of_not_mem hmem),
    takeFault_running _ (s.answer none) hf]
  rfl

end Machine

end Sys2Proof
end

section
/-! SUPPORT. The host access operations at each number of the register space (40_host_access.md R81 to R83): which
numbers are mapped, what rights their registers have, and so which WR and RD fault BadAccess. -/

namespace Sys2Proof.Machine

/-! ### The numbers of the registers and their rights -/

/-- The mapped numbers (10_state.md R11). -/
theorem exists_regNumber_iff (addr : RegNumber) :
    (∃ r, regNumber r = addr) ↔ addr.toNat ≤ 0x17 ∨ addr.toNat = 0x1E ∨ addr.toNat = 0x1F := by
  constructor
  · rintro ⟨r, rfl⟩
    cases r <;> decide
  · intro h
    have key : ∀ addr : RegNumber, (addr.toNat ≤ 0x17 ∨ addr.toNat = 0x1E ∨ addr.toNat = 0x1F) →
        ∃ r ∈ allRegs, regNumber r = addr := by decide
    obtain ⟨r, -, hr⟩ := key addr h
    exact ⟨r, hr⟩

theorem regRights_eq_readWrite_iff (r : Reg) :
    regRights r = .readWrite ↔
      (regNumber r).toNat ≤ 0x07 ∨ (0x10 ≤ (regNumber r).toNat ∧ (regNumber r).toNat ≤ 0x17) := by
  cases r <;> decide

theorem regRights_eq_writeOnly_iff (r : Reg) : regRights r = .writeOnly ↔ (regNumber r).toNat = 0x1F := by
  cases r <;> decide

/-! ### WR -/

/-- A WR breaks the access rights where no register, or a read-only one, has the number (40_host_access.md R81). -/
theorem wrEffect_of_readOnly {addr : RegNumber} (h : ∀ r, regNumber r = addr → regRights r = .readOnly) (w : Word)
    (s : State) : wrEffect addr w s = takeFault .badAccess s := by
  unfold wrEffect
  cases hr : regOfNumber addr with
  | none => rfl
  | some r => simp only [h r (regNumber_of_regOfNumber hr)]

/-- Settles O25: no register of these numbers is read-write, and none is CMD. -/
theorem wrBadAccess : Obligations.WrBadAccess := by
  intro s addr w hf haddr
  have hro : ∀ r, regNumber r = addr → regRights r = .readOnly := by
    rintro r rfl
    cases hr : regRights r with
    | readOnly => rfl
    | readWrite =>
      have hn := (regRights_eq_readWrite_iff r).mp hr
      omega
    | writeOnly =>
      have hn := (regRights_eq_writeOnly_iff r).mp hr
      omega
  rw [exec_wr, acceptWrite_running _ s hf, wrEffect_of_readOnly hro, takeFault_running _ (s.answer none) hf]
  rfl

theorem commandEffect_of_ok {w : Word} {c : Command} (h : decodeCommand w = .ok c) :
    commandEffect w = runCommand c := by
  funext s
  simp only [commandEffect, h]

/-- Settles O26: a WR to CMD and the command are accepted alike, and the word's effect is that of its command. -/
theorem wrToCmdIsTheCommand : Obligations.WrToCmdIsTheCommand := by
  intro s w c h
  rw [exec_wr_cmd, commandEffect_of_ok h, exec_instrOfCommand]

/-! ### RD -/

/-- Every register but CMD answers a RD of its number with its value (40_host_access.md R83). -/
theorem rdEffect_regNumber {r : Reg} (h : regRights r ≠ .writeOnly) (s : State) :
    rdEffect (regNumber r) s = s.answer (some (readRegister s r)) := by
  obtain ⟨r', hr', -, he⟩ | ⟨hcmd, -⟩ := rdEffect_cases (regNumber r) s
  · rw [he, regNumber_injective hr']
  · exact absurd (congrArg regRights (hcmd r rfl)) h

/-- A fault on any unit, halted or not, as an update of STATUS (60_exceptions.md R145). -/
theorem takeFault_eq (f : Fault) (s : State) :
    takeFault f s = { s with
      status := if s.status.fault then s.status else { s.status with fault := true, faultCode := f.code } } := by
  cases hf : s.status.fault with
  | false => rw [takeFault_running f s hf]; rfl
  | true => rw [takeFault_halted f s hf]; rfl

/-- Settles O28: these are the mapped numbers but that of CMD. -/
theorem rdAnswers : Obligations.RdAnswers := by
  intro s addr haddr
  obtain ⟨r, rfl⟩ := (exists_regNumber_iff addr).mpr (by omega)
  have hread : regRights r ≠ .writeOnly := mt (regRights_eq_writeOnly_iff r).mp (by omega)
  refine ⟨r, rfl, ?_⟩
  rw [exec_rd, rdEffect_regNumber hread]
  rfl

/-- Settles O29: a register that answers would be mapped and not CMD, and no such register has one of these numbers. -/
theorem rdBadAccess : Obligations.RdBadAccess := by
  intro s addr haddr
  obtain ⟨r, rfl, hread, -⟩ | ⟨-, he⟩ := rdEffect_cases addr s
  · have hmapped := (exists_regNumber_iff (regNumber r)).mp ⟨r, rfl⟩
    have hcmd := mt (regRights_eq_writeOnly_iff r).mpr hread
    omega
  · rw [exec_rd, he, takeFault_eq]
    rfl

end Sys2Proof.Machine
end

section
/-! SUPPORT. The configuration commands on a unit that is not halted (41_configuration.md R91 to R93, R95): which
descriptors FMTSET rejects and for which reason, what it latches from the others, and what BUFSET latches. -/

namespace Sys2Proof.Machine

theorem exec_fmtset_running {s : State} (hf : s.status.fault = false) :
    exec .fmtset s = .next (fmtsetEffect (s.answer none)) := acceptWrite_running fmtsetEffect s hf

theorem exec_bufset_running {s : State} (hf : s.status.fault = false) :
    exec .bufset s = .next (bufsetEffect (s.answer none)) := acceptWrite_running bufsetEffect s hf

/-! ### FMTSET -/

/-- The descriptor breaks the condition that the reason names, and none that is tested before it
(41_configuration.md R91). -/
def Descriptor.FirstBreaks (d : Descriptor) : FormatError → Prop
  | .lengthTooLarge => ∃ ch, (d.channel ch).length.toNat > 16
  | .msbRight => (∀ ch, (d.channel ch).length.toNat ≤ 16) ∧ ∃ ch, (d.channel ch).msbr = true
  | .badPixelWidth =>
    (∀ ch, (d.channel ch).length.toNat ≤ 16 ∧ (d.channel ch).msbr = false) ∧
      (d.bpp.toNat = 0 ∨ d.bpp.toNat % 8 ≠ 0 ∨ d.bpp.toNat > 32)

/-- The length test, as `validate` writes it out channel by channel. -/
theorem Descriptor.exists_length_gt_iff (d : Descriptor) :
    (∃ ch, (d.channel ch).length.toNat > 16) ↔
      d.red.length.toNat > 16 ∨ d.green.length.toNat > 16 ∨ d.blue.length.toNat > 16 ∨ d.alpha.length.toNat > 16 := by
  simp only [Channel.exists_iff, or_assoc, Descriptor.channel]

/-- The MSB-right test, as `validate` writes it out channel by channel. -/
theorem Descriptor.exists_msbr_iff (d : Descriptor) :
    (∃ ch, (d.channel ch).msbr = true) ↔
      d.red.msbr = true ∨ d.green.msbr = true ∨ d.blue.msbr = true ∨ d.alpha.msbr = true := by
  simp only [Channel.exists_iff, or_assoc, Descriptor.channel]

theorem Descriptor.not_length_gt {d : Descriptor} (h : ∀ ch, (d.channel ch).length.toNat ≤ 16) :
    ¬ (d.red.length.toNat > 16 ∨ d.green.length.toNat > 16 ∨ d.blue.length.toNat > 16 ∨ d.alpha.length.toNat > 16) :=
  mt d.exists_length_gt_iff.mpr fun ⟨ch, hgt⟩ => Nat.not_lt.mpr (h ch) hgt

theorem Descriptor.not_msbr {d : Descriptor} (h : ∀ ch, (d.channel ch).msbr = false) :
    ¬ (d.red.msbr = true ∨ d.green.msbr = true ∨ d.blue.msbr = true ∨ d.alpha.msbr = true) :=
  mt d.exists_msbr_iff.mpr fun ⟨ch, hset⟩ => Bool.false_ne_true ((h ch).symm.trans hset)

/-- The reason of a rejection is the first condition broken. -/
theorem validate_of_firstBreaks {d : Descriptor} {e : FormatError} (h : d.FirstBreaks e) : validate d = .error e := by
  unfold validate
  cases e with
  | lengthTooLarge => exact if_pos (d.exists_length_gt_iff.mp h)
  | msbRight =>
    obtain ⟨hlen, hmsbr⟩ := h
    rw [if_neg (Descriptor.not_length_gt hlen), if_pos (d.exists_msbr_iff.mp hmsbr)]
  | badPixelWidth =>
    obtain ⟨hch, hbpp⟩ := h
    obtain ⟨hlen, hmsbr⟩ := forall_and.mp hch
    rw [if_neg (Descriptor.not_length_gt hlen), if_neg (Descriptor.not_msbr hmsbr), if_pos hbpp]

/-- A descriptor that passes the three tests is accepted; `validate_ok` says what its format is. -/
theorem validate_of_legal {d : Descriptor}
    (hch : ∀ ch, (d.channel ch).length.toNat ≤ 16 ∧ (d.channel ch).msbr = false)
    (hbpp : ¬ (d.bpp.toNat = 0 ∨ d.bpp.toNat % 8 ≠ 0 ∨ d.bpp.toNat > 32)) : ∃ f, validate d = .ok f := by
  obtain ⟨hlen, hmsbr⟩ := forall_and.mp hch
  unfold validate
  rw [if_neg (Descriptor.not_length_gt hlen), if_neg (Descriptor.not_msbr hmsbr), if_neg hbpp]
  exact ⟨_, rfl⟩

/-- The warning of an accepted format, on the descriptor's own lengths (41_configuration.md R93): none was cut. -/
theorem zeroLengthWarning_of_validate_ok {d : Descriptor} {f : PixelFormat} (h : validate d = .ok f) :
    zeroLengthWarning f = decide (d.red.length = 0 ∨ d.green.length = 0 ∨ d.blue.length = 0) := by
  have hzero (ch : Channel) : (f.channel ch).length = 0 ↔ (d.channel ch).length = 0 := by
    obtain ⟨hlen, -⟩ := (validate_ok h).1 ch
    rw [BitVec.toNat_eq, BitVec.toNat_eq, hlen]
    rfl
  exact decide_eq_decide.mpr (or_congr (hzero .red) (or_congr (hzero .green) (hzero .blue)))

theorem fmtsetEffect_of_error {s : State} {e : FormatError} (h : validate s.desc = .error e) :
    fmtsetEffect s = raiseUnsupportedFormat e (discardFormat s) := by
  simp only [fmtsetEffect, h]

theorem fmtsetEffect_of_ok {s : State} {f : PixelFormat} (h : validate s.desc = .ok f) :
    fmtsetEffect s = latchFormat f (discardFormat s) := by
  simp only [fmtsetEffect, h]

/-- Settles O32: `validate` accepts the descriptor, and its format is latched over the discarded one. -/
theorem fmtsetAccepts : Obligations.FmtsetAccepts := by
  intro s hf hch hbpp
  obtain ⟨f, hv⟩ := validate_of_legal hch (by omega)
  obtain ⟨hspec, hbytes, -, -⟩ := validate_ok hv
  rw [exec_fmtset_running hf, fmtsetEffect_of_ok (s := s.answer none) hv]
  refine ⟨_, rfl, fun ch => ?_, hbytes, rfl, ?_, rfl, rfl, rfl⟩
  · obtain ⟨hlen, -, hoff, -⟩ := hspec ch
    exact ⟨hlen, hoff⟩
  · simp [hf, zeroLengthWarning_of_validate_ok hv]

/-- Settles O33: each of the three cases is a reason, with its code, that the descriptor breaks first. -/
theorem fmtsetRejects : Obligations.FmtsetRejects := by
  intro s code hf h
  obtain ⟨e, hbreaks, rfl⟩ : ∃ e, s.desc.FirstBreaks e ∧ code = e.code := by
    obtain ⟨hlen, hcode⟩ | ⟨hlen, hmsbr, hcode⟩ | ⟨hch, hbpp, hcode⟩ := h
    · exact ⟨.lengthTooLarge, hlen, hcode⟩
    · exact ⟨.msbRight, ⟨hlen, hmsbr⟩, hcode⟩
    · exact ⟨.badPixelWidth, ⟨hch, hbpp⟩, hcode⟩
  rw [exec_fmtset_running hf, fmtsetEffect_of_error (s := s.answer none) (validate_of_firstBreaks hbreaks)]
  rfl

/-! ### BUFSET -/

theorem bufsetEffect_of_fmtValid {s : State} (h : s.status.fmtValid = true) : bufsetEffect s = latchBuffer s := by
  simp [bufsetEffect, h]

/-- Settles O34: with a format BUFSET does not fault. -/
theorem bufsetLatches : Obligations.BufsetLatches := by
  intro s hf hfmt
  rw [exec_bufset_running hf, bufsetEffect_of_fmtValid (s := s.answer none) hfmt]
  rfl

end Sys2Proof.Machine
end

section
/-! SUPPORT. The channel codec (42_channel_codec.md R104 to R106): its laws, each read off the bits of `pack` and
`unpack`, and the commands PACK and UNPACK on a unit that is not halted and has a format. -/

namespace Sys2Proof.Machine

/-! ### The bits of `pack` and `unpack` -/

/-- Settles O36, by the bits of `pack`. -/
theorem packBits : Obligations.PackBits := fun _ v _ hlen hi => pack_getLsbD hlen v hi

/-- Settles O37: a channel of length 0 is the opaque one, and any other has the bits of `unpack`. -/
theorem unpackBits : Obligations.UnpackBits := by
  intro c p
  constructor
  · intro hzero
    exact unpack_of_length_zero (by rw [hzero]; rfl) p
  · intro hpos hlen i hi
    exact unpack_getLsbD hpos hlen p hi

/-! ### The words that the laws mask with -/

/-- `0xFFFF - mask(n)` is the complement of `mask(n)` (00_scope.md R8). -/
theorem sub_mask_getLsbD (n : Nat) {i : Nat} (hi : i < 16) :
    ((0xFFFF : Half) - mask 16 n).getLsbD i = decide (n ≤ i) := by
  rw [show (0xFFFF : Half) = BitVec.allOnes 16 from rfl, BitVec.allOnes_sub_eq_not, BitVec.getLsbD_not,
    mask_getLsbD 16 n i hi, decide_eq_true hi, Bool.true_and, ← decide_not, decide_eq_decide, not_lt]

/-- The word `mask(len) << off`, cut to the container, has a one at each bit of the channel. -/
theorem ofNat_channel_getLsbD (c : ChannelSpec) {i : Nat} (hi : i < 32) :
    (BitVec.ofNat 32 ((2 ^ c.length.toNat - 1) * 2 ^ c.offset.toNat)).getLsbD i = true ↔ c.covers i := by
  rw [BitVec.getLsbD_ofNat, Nat.testBit_mul_two_pow, Nat.testBit_two_pow_sub_one]
  simp only [hi, ChannelSpec.covers, decide_true, Bool.true_and, Bool.and_eq_true, decide_eq_true_eq]
  omega

/-! ### A packed value unpacked -/

theorem pack_of_length_zero {c : ChannelSpec} (h : c.length.toNat = 0) (v : Half) : pack c v = 0 := by
  simp only [pack, h, if_true]

/-- Of a packed value come back the bits that the channel holds and the container did not cut off
(42_channel_codec.md R106 laws 1 and 2). -/
theorem unpack_pack_getLsbD {c : ChannelSpec} (hpos : 1 ≤ c.length.toNat) (hlen : c.length.toNat ≤ 16) (v : Half)
    {i : Nat} (hi : i < 16) :
    (unpack c (pack c v)).getLsbD i =
      (decide (16 - c.length.toNat ≤ i ∧ c.offset.toNat + (i - (16 - c.length.toNat)) < 32) && v.getLsbD i) := by
  rw [unpack_getLsbD hpos hlen _ hi]
  by_cases hlow : 16 - c.length.toNat ≤ i
  · by_cases hin : c.offset.toNat + (i - (16 - c.length.toNat)) < 32
    · have hback : 16 - c.length.toNat + (c.offset.toNat + (i - (16 - c.length.toNat)) - c.offset.toNat) = i := by omega
      have hcov : c.offset.toNat + (i - (16 - c.length.toNat)) < c.offset.toNat + c.length.toNat := by omega
      rw [pack_getLsbD hlen v hin, hback]
      simp [hlow, hin, hcov]
    · rw [BitVec.getLsbD_of_ge _ _ (Nat.not_lt.mp hin)]
      simp [hin]
  · simp [hlow]

/-- Law 1: a channel that lies in the container clears the low bits of the value. -/
theorem unpack_pack_of_inContainer {c : ChannelSpec} (hpos : 1 ≤ c.length.toNat) (hlen : c.length.toNat ≤ 16)
    (hin : c.offset.toNat + c.length.toNat ≤ 32) (v : Half) :
    unpack c (pack c v) = v &&& (0xFFFF - mask 16 (16 - c.length.toNat)) := by
  apply BitVec.eq_of_getLsbD_eq
  intro i hi
  rw [unpack_pack_getLsbD hpos hlen v hi, BitVec.getLsbD_and, sub_mask_getLsbD _ hi, Bool.and_comm]
  have hkept : c.offset.toNat + (i - (16 - c.length.toNat)) < 32 := by omega
  simp only [hkept, and_true]

/-- Law 2, at every offset: the low `32 - off` bits of the channel value survive, which are fewer than `len` of them
only when the channel goes past bit 31. -/
theorem unpack_pack {c : ChannelSpec} (hpos : 1 ≤ c.length.toNat) (hlen : c.length.toNat ≤ 16) (v : Half) :
    unpack c (pack c v) =
      ((v >>> (16 - c.length.toNat)) &&& mask 16 (32 - c.offset.toNat)) <<< (16 - c.length.toNat) := by
  apply BitVec.eq_of_getLsbD_eq
  intro i hi
  rw [unpack_pack_getLsbD hpos hlen v hi, BitVec.getLsbD_shiftLeft, BitVec.getLsbD_and, BitVec.getLsbD_ushiftRight,
    mask_getLsbD _ _ _ (by omega)]
  by_cases hlow : 16 - c.length.toNat ≤ i
  · have hkept : c.offset.toNat + (i - (16 - c.length.toNat)) < 32 ↔
        i - (16 - c.length.toNat) < 32 - c.offset.toNat := by omega
    simp [hi, hlow, hkept, Bool.and_comm]
  · simp [hlow, Nat.lt_of_not_le hlow]

/-- Law 6: a channel of 16 bits that lies in the container loses nothing, because law 1 clears no bit. -/
theorem unpack_pack_of_length_sixteen {c : ChannelSpec} (hlen : c.length.toNat = 16) (hoff : c.offset.toNat ≤ 16)
    (v : Half) : unpack c (pack c v) = v := by
  rw [unpack_pack_of_inContainer (by omega) (by omega) (by omega), hlen]
  exact BitVec.and_allOnes

/-! ### An unpacked value packed -/

/-- Law 4: the bits of the channel come back, and no others. -/
theorem pack_unpack {c : ChannelSpec} (hlen : c.length.toNat ≤ 16) (p : Word) :
    pack c (unpack c p) = p &&& BitVec.ofNat 32 ((2 ^ c.length.toNat - 1) * 2 ^ c.offset.toNat) := by
  apply BitVec.eq_of_getLsbD_eq
  intro i hi
  rw [Bool.eq_iff_iff, pack_unpack_bit hlen p hi, BitVec.getLsbD_and, Bool.and_eq_true, ofNat_channel_getLsbD c hi,
    and_comm]

/-- Law 5: a packed value has bits in its channel alone, and those come back. -/
theorem pack_unpack_pack {c : ChannelSpec} (hlen : c.length.toNat ≤ 16) (v : Half) :
    pack c (unpack c (pack c v)) = pack c v := by
  apply BitVec.eq_of_getLsbD_eq
  intro i hi
  have hcov : (pack c v).getLsbD i = true → c.covers i := fun hbit => by
    rw [pack_getLsbD hlen v hi, Bool.and_eq_true, decide_eq_true_eq] at hbit
    obtain ⟨hcov, -⟩ := hbit
    exact hcov
  rw [Bool.eq_iff_iff, pack_unpack_bit hlen _ hi]
  exact and_iff_right_of_imp hcov

/-! ### The packed value as a number -/

/-- In the container `pack` drops the low `16 - len` bits and multiplies by `2 ^ off`, losing nothing at the top. -/
theorem pack_toNat {c : ChannelSpec} (hlen : c.length.toNat ≤ 16) (hin : c.offset.toNat + c.length.toNat ≤ 32)
    (v : Half) : (pack c v).toNat = v.toNat / 2 ^ (16 - c.length.toNat) * 2 ^ c.offset.toNat := by
  apply Nat.eq_of_testBit_eq
  intro i
  rw [BitVec.testBit_toNat, Nat.testBit_mul_two_pow, Nat.testBit_div_two_pow, BitVec.testBit_toNat, Nat.add_comm]
  by_cases hi : i < c.offset.toNat + c.length.toNat
  · rw [pack_getLsbD hlen v (by omega)]
    simp [hi]
  · have hzero : (pack c v).getLsbD i = false := by
      by_cases hword : i < 32
      · rw [pack_getLsbD hlen v hword]
        simp [hi]
      · exact BitVec.getLsbD_of_ge _ _ (Nat.not_lt.mp hword)
    rw [hzero, BitVec.getLsbD_of_ge v _ (by omega), Bool.and_false]

/-- Law 7, because the quotient and the product are monotone. -/
theorem pack_toNat_mono {c : ChannelSpec} (hlen : c.length.toNat ≤ 16) (hin : c.offset.toNat + c.length.toNat ≤ 32)
    {v₁ v₂ : Half} (h : v₁.toNat ≤ v₂.toNat) : (pack c v₁).toNat ≤ (pack c v₂).toNat := by
  rw [pack_toNat hlen hin, pack_toNat hlen hin]
  exact Nat.mul_le_mul_right _ (Nat.div_le_div_right h)

/-- Settles O38, law by law; law 3 holds because a channel of length 0 packs to 0 and unpacks to 0xFFFF. -/
theorem channelLaws : Obligations.ChannelLaws := by
  intro c hlen
  refine ⟨fun hpos hin => unpack_pack_of_inContainer hpos hlen hin, fun hpos hpast => ?_, fun hzero v p => ?_,
    fun _ => pack_unpack hlen, pack_unpack_pack hlen, unpack_pack_of_length_sixteen,
    fun hin _ _ => pack_toNat_mono hlen hin⟩
  · have hoff : c.offset.toNat < 32 := c.offset.isLt
    exact ⟨by omega, unpack_pack hpos hlen⟩
  · have hzero : c.length.toNat = 0 := by rw [hzero]; rfl
    exact ⟨pack_of_length_zero hzero v, unpack_of_length_zero hzero p, unpack_of_length_zero hzero _,
      pack_of_length_zero hzero _⟩

/-! ### PACK and UNPACK -/

theorem exec_pack_running {s : State} (hf : s.status.fault = false) (ch : Channel) :
    exec (.pack ch) s = .next (packEffect ch (s.answer none)) := acceptWrite_running (packEffect ch) s hf

theorem exec_unpack_running {s : State} (hf : s.status.fault = false) (ch : Channel) :
    exec (.unpack ch) s = .next (unpackEffect ch (s.answer none)) := acceptWrite_running (unpackEffect ch) s hf

theorem packEffect_of_fmtValid {s : State} (h : s.status.fmtValid = true) (ch : Channel) :
    packEffect ch s = s.setPix (pack (s.fmt.channel ch) s.opr.v16) := by
  simp [packEffect, h]

theorem unpackEffect_of_fmtValid {s : State} (h : s.status.fmtValid = true) (ch : Channel) :
    unpackEffect ch s = s.setV16 (unpack (s.fmt.channel ch) s.opr.pix) := by
  simp [unpackEffect, h]

/-- Settles O39: with a format PACK does not fault. -/
theorem packResult : Obligations.PackResult := by
  intro s ch hf hfmt
  rw [exec_pack_running hf, packEffect_of_fmtValid (s := s.answer none) hfmt]
  rfl

/-- Settles O40: with a format UNPACK does not fault. -/
theorem unpackResult : Obligations.UnpackResult := by
  intro s ch hf hfmt
  rw [exec_unpack_running hf, unpackEffect_of_fmtValid (s := s.answer none) hfmt]
  rfl

end Sys2Proof.Machine
end

section
/-! SUPPORT. The pixel codec (43_pixel_codec.md R112 to R115): what a colour that was encoded decodes to, which bits of a
packed pixel that was decoded come back, and the commands ENCODE and DECODE on a unit that is not halted and has a
format. -/

namespace Sys2Proof.Machine

/-! ### A colour encoded and decoded -/

theorem decodePacked_component (p : Word) (f : PixelFormat) (ch : Channel) :
    (decodePacked p f).component ch = unpack (f.channel ch) p := by cases ch <;> rfl

theorem encodeColor_getLsbD (c : Color) (f : PixelFormat) (i : Nat) :
    (encodeColor c f).getLsbD i = true ↔ ∃ ch, (pack (f.channel ch) (c.component ch)).getLsbD i = true := by
  rw [Channel.exists_iff]
  simp only [encodeColor, BitVec.getLsbD_or, Bool.or_eq_true, PixelFormat.channel, Color.component]

/-- A packed value has bits in its channel alone. -/
theorem covers_of_pack_getLsbD {c : ChannelSpec} (hlen : c.length.toNat ≤ 16) {v : Half} {i : Nat} (hi : i < 32)
    (hbit : (pack c v).getLsbD i = true) : c.covers i := by
  rw [pack_getLsbD hlen v hi, Bool.and_eq_true, decide_eq_true_eq] at hbit
  obtain ⟨hcov, -⟩ := hbit
  exact hcov

/-- Where the channels are disjoint, the bits of a channel in an encoded colour are those that it packed. -/
theorem encodeColor_getLsbD_of_covers {f : PixelFormat} (hdisj : f.ChannelsDisjoint)
    (hlen : ∀ ch, (f.channel ch).length.toNat ≤ 16) (c : Color) {ch : Channel} {i : Nat} (hi : i < 32)
    (hcov : (f.channel ch).covers i) :
    (encodeColor c f).getLsbD i = (pack (f.channel ch) (c.component ch)).getLsbD i := by
  rw [Bool.eq_iff_iff, encodeColor_getLsbD]
  constructor
  · rintro ⟨ch', hbit⟩
    have hsame : ch' = ch := hdisj ch' ch i (covers_of_pack_getLsbD (hlen ch') hi hbit) hcov
    rwa [hsame] at hbit
  · exact fun hbit => ⟨ch, hbit⟩

/-- Disjoint channels are independent lanes: each unpacks what it packed (43_pixel_codec.md R117). -/
theorem unpack_encodeColor {f : PixelFormat} (hdisj : f.ChannelsDisjoint)
    (hlen : ∀ ch, (f.channel ch).length.toNat ≤ 16) (c : Color) (ch : Channel) :
    unpack (f.channel ch) (encodeColor c f) = unpack (f.channel ch) (pack (f.channel ch) (c.component ch)) :=
  unpack_congr (hlen ch) fun _ hi hcov => encodeColor_getLsbD_of_covers hdisj hlen c hi hcov

/-- Settles O43: each lane is law 1 of the channel codec, or the opaque channel of length 0. -/
theorem decodeOfEncode : Obligations.DecodeOfEncode := by
  intro f c hdisj hin ch
  obtain ⟨hlen, hend⟩ := hin ch
  rw [decodePacked_component, unpack_encodeColor hdisj (fun ch => (hin ch).1)]
  split
  · next hzero => exact unpack_of_length_zero (by rw [hzero]; rfl) _
  · next hzero =>
    have hpos : 0 < (f.channel ch).length.toNat := Nat.pos_of_ne_zero fun h => hzero (BitVec.eq_of_toNat_eq h)
    exact unpack_pack_of_inContainer hpos hlen (hend hpos) _

/-! ### A packed pixel decoded and encoded -/

/-- The word of a channel of length 0 is 0, so the case of its own in `chanmask` changes nothing. -/
theorem channelMask_eq (c : ChannelSpec) :
    channelMask c = BitVec.ofNat 32 ((2 ^ c.length.toNat - 1) * 2 ^ c.offset.toNat) := by
  rw [channelMask, Nat.shiftLeft_eq]
  split
  · next hzero => rw [hzero, Nat.pow_zero, Nat.sub_self, Nat.zero_mul]; rfl
  · rfl

/-- A channel gives its own bits back (42_channel_codec.md R106 law 4). -/
theorem pack_unpack_eq_and_channelMask {c : ChannelSpec} (hlen : c.length.toNat ≤ 16) (p : Word) :
    pack c (unpack c p) = p &&& channelMask c := by
  rw [pack_unpack hlen, channelMask_eq]

/-- The bits that the channels give back are together those of the coverage mask. -/
theorem encodeColor_decodePacked {f : PixelFormat} (hlen : ∀ ch, (f.channel ch).length.toNat ≤ 16) (p : Word) :
    encodeColor (decodePacked p f) f = p &&& coverageMask f := by
  simp only [encodeColor, decodePacked, coverageMask, BitVec.and_or_distrib_left,
    pack_unpack_eq_and_channelMask (c := f.red) (hlen .red), pack_unpack_eq_and_channelMask (c := f.green) (hlen .green),
    pack_unpack_eq_and_channelMask (c := f.blue) (hlen .blue), pack_unpack_eq_and_channelMask (c := f.alpha) (hlen .alpha)]

theorem PixelFormat.length_le_sixteen {f : PixelFormat} (hr : f.red.length.toNat ≤ 16) (hg : f.green.length.toNat ≤ 16)
    (hb : f.blue.length.toNat ≤ 16) (ha : f.alpha.length.toNat ≤ 16) (ch : Channel) :
    (f.channel ch).length.toNat ≤ 16 := by
  cases ch with
  | red => exact hr
  | green => exact hg
  | blue => exact hb
  | alpha => exact ha

/-- A word below `2 ^ n` has no bit outside `mask(n)` (00_scope.md R8). -/
theorem and_mask_of_lt {p : Word} {n : Nat} (hp : p.toNat < 2 ^ n) : p &&& mask 32 n = p := by
  apply BitVec.eq_of_getLsbD_eq
  intro i hi
  rw [BitVec.getLsbD_and, mask_getLsbD _ _ _ hi]
  by_cases hin : i < n
  · simp [hin]
  · have hout : p.getLsbD i = false :=
      Nat.testBit_lt_two_pow (hp.trans_le (Nat.pow_le_pow_right Nat.two_pos (Nat.not_lt.mp hin)))
    simp [hout]

/-- Settles O44 by the law; the masks of RGB565 and of the 32-bit format without alpha are the low 16 and 24 bits. -/
theorem encodeOfDecode : Obligations.EncodeOfDecode := by
  refine ⟨fun f hlen p => ?_, fun f p hr hg hb ha hp => ?_, fun f hr hg hb ha => ⟨?_, ?_⟩⟩
  · have hlaw := encodeColor_decodePacked hlen p
    exact ⟨hlaw, by rw [hlaw]⟩
  · have hlen : ∀ ch, (f.channel ch).length.toNat ≤ 16 :=
      PixelFormat.length_le_sixteen (by rw [hr]; decide) (by rw [hg]; decide) (by rw [hb]; decide) (by rw [ha]; decide)
    have hmask : coverageMask f = mask 32 16 := by rw [coverageMask, hr, hg, hb, ha]; decide
    rw [encodeColor_decodePacked hlen, hmask, and_mask_of_lt hp]
  · rw [decodePacked, hr, hg, hb, ha]
    decide
  · have hlen : ∀ ch, (f.channel ch).length.toNat ≤ 16 :=
      PixelFormat.length_le_sixteen (by rw [hr]; decide) (by rw [hg]; decide) (by rw [hb]; decide) (by rw [ha]; decide)
    have hmask : coverageMask f = mask 32 24 := by rw [coverageMask, hr, hg, hb, ha]; decide
    rw [encodeColor_decodePacked hlen, hmask]
    decide

/-! ### ENCODE and DECODE -/

theorem exec_encode_running {s : State} (hf : s.status.fault = false) :
    exec .encode s = .next (encodeEffect (s.answer none)) := acceptWrite_running encodeEffect s hf

theorem exec_decode_running {s : State} (hf : s.status.fault = false) :
    exec .decode s = .next (decodeEffect (s.answer none)) := acceptWrite_running decodeEffect s hf

theorem encodeEffect_of_fmtValid {s : State} (h : s.status.fmtValid = true) :
    encodeEffect s = s.setPix (encodeColor s.opr.color s.fmt) := by
  simp [encodeEffect, h]

theorem decodeEffect_of_fmtValid {s : State} (h : s.status.fmtValid = true) :
    decodeEffect s = s.setColor (decodePacked s.opr.pix s.fmt) := by
  simp [decodeEffect, h]

/-- Settles O41: with a format ENCODE does not fault. -/
theorem encodeResult : Obligations.EncodeResult := by
  intro s hf hfmt
  rw [exec_encode_running hf, encodeEffect_of_fmtValid (s := s.answer none) hfmt]
  rfl

/-- Settles O42: with a format DECODE does not fault. -/
theorem decodeResult : Obligations.DecodeResult := by
  intro s hf hfmt
  rw [exec_decode_running hf, decodeEffect_of_fmtValid (s := s.answer none) hfmt]
  rfl

end Sys2Proof.Machine
end

section
/-! SUPPORT. The pixel access (44_pixel_access.md R120 to R129): the bytes of a packed pixel, the address calculator and
what `GeometryWellFormed` says of it, the pixel commands out of bounds, and two pixels of one buffer. -/

namespace Sys2Proof.Machine

/-! ### The bytes of a packed pixel -/

/-- A byte of an assembled pixel is the byte it was assembled from (44_pixel_access.md R126). -/
theorem disassemble_assemble (b : Nat → Byte) {n i : Nat} (hn : n ≤ 4) (hi : i < n) :
    disassemble (assemble b n) i = b i := by
  apply BitVec.eq_of_getLsbD_eq
  intro k hk
  have hbyte : (8 * i + k) / 8 = i := by omega
  have hbit : (8 * i + k) % 8 = k := by omega
  rw [disassemble_getLsbD, assemble_getLsbD _ _ _ (by omega), hbyte, hbit, decide_eq_true hk,
    decide_eq_true (show 8 * i + k < 8 * n by omega), Bool.true_and, Bool.true_and]

theorem disassemble_eq_extractLsb' (p : Word) (i : Nat) : disassemble p i = p.extractLsb' (8 * i) 8 := by
  apply BitVec.eq_of_getLsbD_eq
  intro k _
  rw [disassemble_getLsbD, BitVec.getLsbD_extractLsb']

/-- Settles O45, bit by bit. -/
theorem bytesOfPixel : Obligations.BytesOfPixel :=
  ⟨disassemble_eq_extractLsb', fun p n _ => assemble_disassemble p n, fun b _ hn _ hi => disassemble_assemble b hn hi⟩

/-! ### The address calculator -/

/-- The coordinates of an in-bounds pixel as natural numbers (44_pixel_access.md R121). -/
theorem InBounds.exists_nat {b : PixelBuffer} {xs ys : Int} (h : InBounds b xs ys) :
    ∃ x y : Nat, xs = x ∧ ys = y ∧ x < b.width.toNat ∧ y < b.height.toNat := by
  obtain ⟨hx, hxw, hy, hyh⟩ := h
  exact ⟨xs.toNat, ys.toNat, (Int.toNat_of_nonneg hx).symm, (Int.toNat_of_nonneg hy).symm, by omega, by omega⟩

/-- A byte of a pixel by its position in the row and its row. -/
theorem pixelAddr_add (b : PixelBuffer) (f : PixelFormat) (x y i : Nat) :
    pixelAddr b f x y + i = (i + f.byteCount * x) + b.pitch.toNat * y := by
  simp only [pixelAddr, Int.toNat_natCast]
  ring

/-- Settles O46: a coordinate is below 2^31, the pitch below 2^32 and a pixel at most 4 bytes, so the products are
bounded one by one. -/
theorem addressIsExact : Obligations.AddressIsExact := by
  intro s hin hn
  have hxlt : s.opr.x.toInt < 2 ^ 31 := BitVec.toInt_lt
  have hylt : s.opr.y.toInt < 2 ^ 31 := BitVec.toInt_lt
  have hpitch : s.buf.pitch.toNat < 2 ^ 32 := s.buf.pitch.isLt
  obtain ⟨x, y, hx, hy, -, -⟩ := InBounds.exists_nat hin
  have haddr : s.pixelOffset = y * s.buf.pitch.toNat + x * s.fmt.byteCount := by
    simp only [State.pixelOffset, pixelAddr, hx, hy, Int.toNat_natCast]
  have hexact : (s.pixelOffset : Int) = s.opr.y.toInt * s.buf.pitch.toNat + s.opr.x.toInt * s.fmt.byteCount := by
    rw [haddr, ← pixelColumn, ← pixelRow, hx, hy]
    push_cast
    rfl
  have hrows : y * s.buf.pitch.toNat ≤ (2 ^ 31 - 1) * (2 ^ 32 - 1) := by
    simp only [pixelRow] at hy
    exact Nat.mul_le_mul (by omega) (by omega)
  have hcolumns : x * s.fmt.byteCount ≤ (2 ^ 31 - 1) * 4 := by
    simp only [pixelColumn] at hx
    exact Nat.mul_le_mul (by omega) hn
  exact ⟨hexact, by omega, by omega⟩

/-! ### The laws of the geometry -/

/-- A position in a row and the row it belongs to are determined by the offset. -/
theorem eq_and_eq_of_add_mul_eq {m a b c d : Nat} (ha : a < m) (hc : c < m) (h : a + m * b = c + m * d) :
    a = c ∧ b = d := by
  have hm : 0 < m := Nat.zero_lt_of_lt ha
  obtain ⟨hdiv, hmod⟩ := (Nat.div_mod_unique hm).mpr ⟨rfl, ha⟩
  obtain ⟨hdiv', hmod'⟩ := (Nat.div_mod_unique hm).mpr ⟨rfl, hc⟩
  rw [h] at hdiv hmod
  exact ⟨hmod.symm.trans hmod', hdiv.symm.trans hdiv'⟩

/-- Under `GeometryWellFormed` a byte of an in-bounds pixel lies in its row, before the padding. -/
theorem State.GeometryWellFormed.position_lt {s : State} (h : s.GeometryWellFormed) {x i : Nat}
    (hx : x < s.buf.width.toNat) (hi : i < s.fmt.byteCount) :
    i + s.fmt.byteCount * x < s.buf.width.toNat * s.fmt.byteCount ∧ i + s.fmt.byteCount * x < s.buf.pitch.toNat := by
  have hrow : i + s.fmt.byteCount * x < s.buf.width.toNat * s.fmt.byteCount := by
    rw [Nat.mul_comm s.buf.width.toNat]
    exact Nat.add_mul_lt_mul_of_lt_of_lt hi hx
  exact ⟨hrow, hrow.trans_le h.1⟩

/-- Two bytes of in-bounds pixels at one offset are the same byte of the same pixel (44_pixel_access.md R124). -/
theorem State.GeometryWellFormed.pixelAddr_inj {s : State} (h : s.GeometryWellFormed) {xs ys xs' ys' : Int}
    (hin : InBounds s.buf xs ys) (hin' : InBounds s.buf xs' ys') {i j : Nat} (hi : i < s.fmt.byteCount)
    (hj : j < s.fmt.byteCount)
    (heq : pixelAddr s.buf s.fmt xs ys + i = pixelAddr s.buf s.fmt xs' ys' + j) : xs = xs' ∧ ys = ys' := by
  obtain ⟨x, y, rfl, rfl, hx, -⟩ := InBounds.exists_nat hin
  obtain ⟨x', y', rfl, rfl, hx', -⟩ := InBounds.exists_nat hin'
  rw [pixelAddr_add, pixelAddr_add] at heq
  obtain ⟨hposition, hrow⟩ := eq_and_eq_of_add_mul_eq (h.position_lt hx hi).2 (h.position_lt hx' hj).2 heq
  obtain ⟨-, hcolumn⟩ := eq_and_eq_of_add_mul_eq hi hj hposition
  exact ⟨congrArg Nat.cast hcolumn, congrArg Nat.cast hrow⟩

/-- An in-bounds pixel ends within the rows of the buffer. -/
theorem State.GeometryWellFormed.pixelAddr_end_le {s : State} (h : s.GeometryWellFormed) {xs ys : Int}
    (hin : InBounds s.buf xs ys) :
    pixelAddr s.buf s.fmt xs ys + s.fmt.byteCount ≤ s.buf.height.toNat * s.buf.pitch.toNat := by
  obtain ⟨x, y, rfl, rfl, hx, hy⟩ := InBounds.exists_nat hin
  calc pixelAddr s.buf s.fmt x y + s.fmt.byteCount
      = (x + 1) * s.fmt.byteCount + y * s.buf.pitch.toNat := by rw [pixelAddr_add]; ring
    _ ≤ s.buf.width.toNat * s.fmt.byteCount + y * s.buf.pitch.toNat :=
        Nat.add_le_add_right (Nat.mul_le_mul_right _ hx) _
    _ ≤ s.buf.pitch.toNat + y * s.buf.pitch.toNat := Nat.add_le_add_right h.1 _
    _ = (y + 1) * s.buf.pitch.toNat := by ring
    _ ≤ s.buf.height.toNat * s.buf.pitch.toNat := Nat.mul_le_mul_right _ hy

/-- The region holds every in-bounds pixel (44_pixel_access.md R124). -/
theorem State.GeometryWellFormed.pixelAddr_end_le_regionSize {s : State} (h : s.GeometryWellFormed) {xs ys : Int}
    (hin : InBounds s.buf xs ys) :
    pixelAddr s.buf s.fmt xs ys + s.fmt.byteCount ≤ s.world.regionSize.val :=
  (h.pixelAddr_end_le hin).trans (Nat.mul_comm s.buf.pitch.toNat _ ▸ h.2)

/-- Settles O47: an offset has one row and one position in it, a pixel's position lies before the padding, and its row
before the height. -/
theorem geometryLaws : Obligations.GeometryLaws := by
  intro s h xs ys hin
  refine ⟨h.pixelAddr_end_le_regionSize hin, fun xs' ys' hin' hne i hi j hj heq => ?_,
    fun row pad i hi hpad hpitch heq => ?_, fun i hi => ?_⟩
  · obtain ⟨hx, hy⟩ := h.pixelAddr_inj hin hin' hi hj heq
    exact hne.elim (absurd hx) (absurd hy)
  · obtain ⟨x, y, rfl, rfl, hx, -⟩ := InBounds.exists_nat hin
    obtain ⟨hbefore, hlt⟩ := h.position_lt hx hi
    rw [pixelAddr_add, Nat.mul_comm row, Nat.add_comm (s.buf.pitch.toNat * row)] at heq
    obtain ⟨hposition, -⟩ := eq_and_eq_of_add_mul_eq hlt hpitch heq
    omega
  · exact (Nat.add_lt_add_left hi _).trans_le (h.pixelAddr_end_le hin)

/-! ### The pixel commands out of bounds -/

theorem getpixelEffect_outside {s : State} (hb : s.status.bufValid = true) (hout : ¬ s.inBounds) :
    getpixelEffect s = s.setColor (decodePacked 0 s.fmt) := by
  simp [getpixelEffect, hb, hout]

theorem setpixelEffect_outside {s : State} (hb : s.status.bufValid = true) (hout : ¬ s.inBounds) :
    setpixelEffect s = s := by
  simp [setpixelEffect, hb, hout]

/-- Settles O48: the test of the bounds comes before every byte access. -/
theorem getpixelOutside : Obligations.GetpixelOutside := by
  intro s hf hb hout
  rw [exec_getpixel_running hf, getpixelEffect_outside (s := s.answer none) hb hout]
  rfl

/-- Settles O50: the test of the bounds comes before every byte access. -/
theorem setpixelOutside : Obligations.SetpixelOutside := by
  intro s hf hb hout
  rw [exec_setpixel_running hf, setpixelEffect_outside (s := s.answer none) hb hout]
  rfl

/-! ### Two pixels of one buffer -/

theorem State.SamePixel.at {s t : State} (h : s.SamePixel t) (x y : Word) : (s.at x y).SamePixel (t.at x y) where
  status := h.status
  fmt := h.fmt
  buf := h.buf
  x := rfl
  y := rfl
  regionSize := h.regionSize

/-- Under `GeometryWellFormed` a unit that can access one pixel can access every in-bounds pixel. -/
theorem State.TouchesRegion.at {s : State} (h : s.TouchesRegion) (hg : s.GeometryWellFormed) {x y : Word}
    (hin : (s.at x y).inBounds) : (s.at x y).TouchesRegion := by
  obtain ⟨hrunning, hbuffer, -, -⟩ := h
  exact ⟨hrunning, hbuffer, hin, Nat.not_lt.mpr (hg.pixelAddr_end_le_regionSize hin)⟩

/-- A byte of another in-bounds pixel is none of the pixel that X and Y name. -/
theorem State.GeometryWellFormed.not_pixelHolds {s : State} (h : s.GeometryWellFormed) (hin : s.inBounds) {x y : Word}
    (hin' : (s.at x y).inBounds) (hne : x ≠ s.opr.x ∨ y ≠ s.opr.y) {i : Nat} (hi : i < s.fmt.byteCount) :
    ¬ s.pixelHolds ((s.at x y).pixelOffset + i) := by
  rintro ⟨hlow, hhigh⟩
  obtain ⟨j, hj⟩ := Nat.exists_eq_add_of_le hlow
  obtain ⟨hx, hy⟩ := h.pixelAddr_inj hin' hin hi (by omega) hj
  exact hne.elim (absurd (BitVec.eq_of_toInt_eq hx)) (absurd (BitVec.eq_of_toInt_eq hy))

/-- Settles O57: the SETPIXEL writes no byte of the other pixel, so both GETPIXELs read the same bytes. -/
theorem otherPixelsKept : Obligations.OtherPixelsKept := by
  intro s x y htouch hg hw hne hin' hquiet
  obtain ⟨-, -, hin, -⟩ := id htouch
  have htouch' : (s.at x y).TouchesRegion := htouch.at hg hin'
  obtain ⟨t, he, hr, -, -, hsame⟩ := exec_setpixel_of_touches htouch
  obtain ⟨-, l, m, -⟩ := World.writePixel_some hr
  obtain ⟨before, hbefore, hopr, -⟩ := getpixelInside (s.at x y) htouch' hw hquiet.first
  obtain ⟨after, hafter, -, hcolor⟩ := exec_getpixel_second htouch' (hsame.at x y) m hw hquiet
  have hkept : ∀ i < s.fmt.byteCount,
      t.byte ((s.at x y).pixelOffset + i) = s.byte ((s.at x y).pixelOffset + i) := fun i hi =>
    (World.writePixel_read (w := (s.answer none).world) hr hw (hquiet.first i hi)).trans
      (if_neg (hg.not_pixelHolds hin hin' hne hi))
  refine ⟨t, before, after, he, hbefore, hafter, ?_⟩
  calc after.opr.color
      = decodePacked (assemble (fun i => t.byte ((s.at x y).pixelOffset + i)) s.fmt.byteCount) s.fmt := hcolor
    _ = decodePacked (assemble (fun i => s.byte ((s.at x y).pixelOffset + i)) s.fmt.byteCount) s.fmt := by
        rw [assemble_congr hkept]
    _ = before.opr.color := (congrArg OperandRegs.color hopr).symm

end Sys2Proof.Machine
end

section
/-! SUPPORT. Faults (60_exceptions.md R142, R145, R146): a transaction that faults changes nothing but STATUS and its
response, which commands fault without a format or a buffer, and which no longer fault once they have what they need. -/

namespace Sys2Proof.Machine

/-! ### The transaction that faults -/

theorem takeFault_answer (f : Fault) (s : State) (r : Option Word) :
    takeFault f (s.answer r) = (takeFault f s).answer r := by
  rw [takeFault_eq, takeFault_eq]
  rfl

theorem eq_takeFault_of_fault_or_same {s u : State} (hf : s.status.fault = false)
    (h : (∃ f, u = takeFault f (s.answer none)) ∨ (s.answer none).SameFault u) (hu : u.status.fault = true) :
    ∃ f r, u = (takeFault f s).answer r := by
  obtain ⟨f, rfl⟩ | ⟨hsame, -⟩ := h
  · exact ⟨f, none, takeFault_answer f s none⟩
  · exact absurd (hu.symm.trans (hsame.trans hf)) nofun

/-- A transaction that faults on a unit that is not halted is the fault and its response, and nothing else
(60_exceptions.md R145). -/
theorem exec_faults {i : Instr} {s t : State} (hf : s.status.fault = false) (he : exec i s = .next t)
    (ht : t.status.fault = true) : ∃ f r, t = (takeFault f s).answer r := by
  obtain ⟨addr, -, rfl⟩ | ⟨hh, -⟩ | ⟨-, addr, w, -, rfl⟩ | ⟨-, c, -, rfl⟩ := exec_cases he
  · obtain ⟨r, -, -, h⟩ | ⟨-, h⟩ := rdEffect_cases addr s
    · rw [h] at ht
      exact absurd (ht.symm.trans hf) nofun
    · exact ⟨.badAccess, some 0, h⟩
  · exact absurd (hf.symm.trans hh) nofun
  · exact eq_takeFault_of_fault_or_same hf (wrEffect_fault addr w (s.answer none)) ht
  · exact eq_takeFault_of_fault_or_same hf (runCommand_fault c (s.answer none)) ht

/-- Settles O19: a transaction that faults is `takeFault` and a response, and the codes of the faults are 1 to 5. -/
theorem faultsArePrecise : Obligations.FaultsArePrecise := by
  intro i s t hf he ht
  obtain ⟨f, r, rfl⟩ := exec_faults hf he ht
  have hpos : 1 ≤ f.code.toNat := Nat.pos_of_ne_zero fun h => f.code_ne_zero (BitVec.eq_of_toNat_eq h)
  rw [takeFault_running f s hf]
  exact ⟨rfl, rfl, rfl, rfl, rfl, hpos, f.code_le_five, rfl⟩

/-! ### Commands without a format or a buffer -/

/-- The whole next state of a WR or a command whose effect is a fault. -/
theorem acceptWrite_faults {act : State → State} {s : State} {f : Fault} (hf : s.status.fault = false)
    (h : act (s.answer none) = takeFault f (s.answer none)) :
    acceptWrite act s = .next { s with
      status := { s.status with fault := true, faultCode := f.code }
      world := { s.world with response := none } } := by
  rw [acceptWrite_running act s hf, h, takeFault_running f (s.answer none) hf]
  rfl

/-- Settles O20: each of the five effects tests FMT_VALID first. -/
theorem needsFormat : Obligations.NeedsFormat := by
  intro i s hi hf hfmt
  obtain rfl | ⟨ch, rfl⟩ | ⟨ch, rfl⟩ | rfl | rfl := hi
  · exact acceptWrite_faults (act := bufsetEffect) hf (if_pos hfmt)
  · exact acceptWrite_faults (act := packEffect ch) hf (if_pos hfmt)
  · exact acceptWrite_faults (act := unpackEffect ch) hf (if_pos hfmt)
  · exact acceptWrite_faults (act := encodeEffect) hf (if_pos hfmt)
  · exact acceptWrite_faults (act := decodeEffect) hf (if_pos hfmt)

/-- Settles O21: both effects test BUF_VALID first. -/
theorem needsBuffer : Obligations.NeedsBuffer := by
  intro i s hi hf hbuf
  obtain rfl | rfl := hi
  · exact acceptWrite_faults (act := getpixelEffect) hf (if_pos hbuf)
  · exact acceptWrite_faults (act := setpixelEffect) hf (if_pos hbuf)

/-! ### No error after construction -/

/-- Under `GeometryWellFormed` the region holds every in-bounds pixel, so a unit with a buffer can access the pixel
that X and Y name unless it is out of bounds (44_pixel_access.md R124). -/
theorem State.touchesRegion_or_outside {s : State} (hf : s.status.fault = false) (hb : s.status.bufValid = true)
    (h : s.GeometryWellFormed ∨ ¬ s.inBounds) : s.TouchesRegion ∨ ¬ s.inBounds := by
  by_cases hin : s.inBounds
  · have hg := h.resolve_right (not_not.mpr hin)
    exact .inl ⟨hf, hb, hin, Nat.not_lt.mpr (hg.pixelAddr_end_le_regionSize hin)⟩
  · exact .inr hin

theorem exec_getpixel_keeps_status {s : State} (hf : s.status.fault = false) (hb : s.status.bufValid = true)
    (h : s.TouchesRegion ∨ ¬ s.inBounds) : ∃ t, exec .getpixel s = .next t ∧ t.status = s.status := by
  obtain htouch | hout := h
  · obtain ⟨t, p, he, -, -, -, hsame⟩ := exec_getpixel_of_touches htouch
    exact ⟨t, he, hsame.status⟩
  · exact ⟨_, getpixelOutside s hf hb hout, rfl⟩

theorem exec_setpixel_keeps_status {s : State} (hf : s.status.fault = false) (hb : s.status.bufValid = true)
    (h : s.TouchesRegion ∨ ¬ s.inBounds) : ∃ t, exec .setpixel s = .next t ∧ t.status = s.status := by
  obtain htouch | hout := h
  · obtain ⟨t, he, -, -, -, hsame⟩ := exec_setpixel_of_touches htouch
    exact ⟨t, he, hsame.status⟩
  · exact ⟨_, setpixelOutside s hf hb hout, rfl⟩

/-- A FMTSET that leaves an error rejected the descriptor: no format and no buffer exists, and no fault was taken
(41_configuration.md R92; 60_exceptions.md R141). -/
theorem exec_fmtset_rejected {s t : State} (hf : s.status.fault = false) (he : exec .fmtset s = .next t)
    (herr : t.status.fmtErr ≠ 0) :
    t.status.fault = false ∧ t.status.fmtValid = false ∧ t.status.bufValid = false := by
  rw [exec_fmtset_running hf] at he
  cases he
  obtain ⟨e, -, h⟩ | ⟨f, -, h⟩ := fmtsetEffect_cases (s.answer none) <;> rw [h] at herr ⊢
  · exact ⟨hf, rfl, rfl⟩
  · exact absurd rfl herr

/-- Settles O23: with a format each codec command has its result, with a buffer a pixel is out of bounds or the region
holds it, and after a rejected format BUFSET faults. -/
theorem noFurtherErrors : Obligations.NoFurtherErrors := by
  intro s hf
  refine ⟨fun hfmt i hi => ?_, fun hb h i hi => ?_, fun t he herr => ?_⟩
  · obtain ⟨ch, rfl⟩ | ⟨ch, rfl⟩ | rfl | rfl := hi
    · exact ⟨_, packResult s ch hf hfmt, rfl⟩
    · exact ⟨_, unpackResult s ch hf hfmt, rfl⟩
    · exact ⟨_, encodeResult s hf hfmt, rfl⟩
    · exact ⟨_, decodeResult s hf hfmt, rfl⟩
  · have hpixel := State.touchesRegion_or_outside hf hb h
    obtain rfl | rfl := hi
    · exact exec_getpixel_keeps_status hf hb hpixel
    · exact exec_setpixel_keeps_status hf hb hpixel
  · obtain ⟨hf', hfmt, hb⟩ := exec_fmtset_rejected hf he herr
    exact ⟨hb, _, needsFormat .bufset t (.inl rfl) hf' hfmt, hb, rfl⟩

end Sys2Proof.Machine
end

section
/-! SUPPORT. Completion (70_reset_and_hazards.md R160, R167): every instruction and every event from outside has a next
state, and with nothing to come the unit waits. -/

namespace Sys2Proof.Machine

/-- Settles O9: `step` of an empty script is the idle step. -/
theorem stepWaits : Obligations.StepWaits := fun _ hscript => step_waits hscript

/-- A WR or a command completes, whether the unit is halted or not (40_host_access.md R81). -/
theorem exists_acceptWrite_next (act : State → State) (s : State) : ∃ t, acceptWrite act s = .next t := by
  cases hf : s.status.fault with
  | false => exact ⟨_, acceptWrite_running act s hf⟩
  | true => exact ⟨_, acceptWrite_halted act s hf⟩

theorem exists_exec_next (i : Instr) (s : State) : ∃ t, exec i s = .next t := by
  obtain ⟨addr, w, rfl⟩ | ⟨addr, rfl⟩ | ⟨c, rfl⟩ := instr_cases i
  · rw [exec_wr]
    exact exists_acceptWrite_next (wrEffect addr w) s
  · exact ⟨rdEffect addr s, exec_rd addr s⟩
  · rw [exec_instrOfCommand]
    exact exists_acceptWrite_next (runCommand c) s

theorem exists_step_next (s : State) : ∃ t, step s = .next t := by
  cases hscript : s.world.script with
  | nil => exact ⟨s, step_waits hscript⟩
  | cons e rest =>
    cases e with
    | transaction tr =>
      rw [step_transaction hscript]
      exact exists_exec_next (Sys2Proof.decode tr) (s.beginEvent rest)
    | reset => exact ⟨_, step_reset hscript⟩
    | environment act => exact ⟨_, step_environment hscript⟩

/-- Settles O11: a RD, a WR and a command each complete, and so does each kind of step, since that of a transaction
executes an instruction. -/
theorem everyStepCompletes : Obligations.EveryStepCompletes := ⟨exists_exec_next, exists_step_next⟩

end Sys2Proof.Machine
end
